-- ==== Sys2Proof/Word.lean ====
section
/-!
DEFINITION. The word types of the block (00_scope.md R8, 30_encoding.md R80, R81).
-/

namespace Sys2Proof

/-- A byte: 8 bits, bit 7 the most significant (R8). -/
abbrev Byte := BitVec 8

/-- A wire word, one chip's slot: 16 bits, bit 15 first on the wire (R81). -/
abbrev Word := BitVec 16

end Sys2Proof
end

