-- ==== Sys2Proof/Config.lean ====
section
/-!
DEFINITION. What an implementation fixes (00_scope.md R7), and the free values: opaque constants of
which nothing can be proved but that they are some value.
-/

namespace Sys2Proof

/-- `OP_NOOP` (R83: derived from the source). -/
def Config.opNoop : Byte := 0x00

/-- `OP_DIGIT(row) = row + 1` (R7, R82). -/
def Config.opDigit (row : Nat) : Byte := BitVec.ofNat 8 (row + 1)

/-- `OP_DECODE_MODE` (R84, D9). PRESUMED, log 10: the numeral is the chip family's; unsafe. -/
def Config.opDecodeMode : Byte := 0x09

/-- `OP_INTENSITY` (R84, D9). PRESUMED, log 10: the numeral is the chip family's; unsafe. -/
def Config.opIntensity : Byte := 0x0A

/-- `OP_SCAN_LIMIT` (R84, D9). PRESUMED, log 10: the numeral is the chip family's; unsafe. -/
def Config.opScanLimit : Byte := 0x0B

/-- `OP_SHUTDOWN` (R84, D9). PRESUMED, log 10: the numeral is the chip family's; unsafe. -/
def Config.opShutdown : Byte := 0x0C

/-- `OP_DISPLAY_TEST` (R84, D9). PRESUMED, log 10: the numeral is the chip family's; unsafe. -/
def Config.opDisplayTest : Byte := 0x0F

/-- `INIT_SCAN_LIMIT` (R7). -/
def Config.initScanLimit : Int := 7

/-- `INIT_DECODE_MODE` (R7). -/
def Config.initDecodeMode : Int := 0

/-- `INIT_INTENSITY` (R7). -/
def Config.initIntensity : Int := 8

/-- Which byte of a slot goes first on the wire. -/
inductive SlotOrder where
  | dataFirst
  | opcodeFirst
  deriving DecidableEq, Repr

/-- `SLOT_ORDER` (R7, R55, D7): data byte first, as the source settles it. Log 11: the chip family is
said to expect the other order (U3), so claims about real chips depend on this switch; unsafe. -/
def Config.slotOrder : SlotOrder := .dataFirst

/-- `SHDN_TRUE_DATA`: the data byte SHUTDOWN sends for `enabled = true` (R173, D11). Log 12: the
literal reading; the chip family is said to read it the other way round (U2); unsafe. -/
def Config.shdnTrueData : Byte := 0x01

/-- `T_SELFTEST_MS` of the instance at reset (R7, D15: OPEN). A free value, log 2: no number is chosen;
safe. -/
opaque Config.selfTestMs : Nat

/-- Free value, log 6: the level a pin drives from the call that makes it an output until its first
write (R264, D13, I8: any value), one for each draw; safe. -/
opaque Config.pinLevel (draw : Nat) : Bool

/-- Free value, log 9: what a chip's register holds after the chip took a RESERVED opcode (R89, I6: any
value of that chip's registers), one for each draw and register address; safe. -/
opaque Config.reservedChipByte (draw : Nat) (opcode : Byte) : Byte

end Sys2Proof
end

