-- ==== Sys2Proof/Syntax.lean ====
section
/-!
DEFINITION. The instructions: one constructor for each row of spec/opcode_table.json (30_encoding.md
R82, R85). `wire…` is a row of format WIRE16, `host…` a row of format HOST; two names stand in both
formats (SHUTDOWN, DISPLAY_TEST). Beside them the HOST record (R86) and the two encoded forms (R80).
-/

namespace Sys2Proof

/-- An instruction: a wire command with its data byte, or a host operation with its operands. Integer
operands are mathematical integers (R86, D3). -/
inductive Instr where
  /-- NOOP (R110). -/
  | wireNoop (data : Byte)
  /-- DIGIT0, row 0 (R111). -/
  | wireDigit0 (data : Byte)
  /-- DIGIT1, row 1 (R112). -/
  | wireDigit1 (data : Byte)
  /-- DIGIT2, row 2 (R113). -/
  | wireDigit2 (data : Byte)
  /-- DIGIT3, row 3 (R114). -/
  | wireDigit3 (data : Byte)
  /-- DIGIT4, row 4 (R115). -/
  | wireDigit4 (data : Byte)
  /-- DIGIT5, row 5 (R116). -/
  | wireDigit5 (data : Byte)
  /-- DIGIT6, row 6 (R117). -/
  | wireDigit6 (data : Byte)
  /-- DIGIT7, row 7 (R118). -/
  | wireDigit7 (data : Byte)
  /-- DECODE_MODE (R119). -/
  | wireDecodeMode (data : Byte)
  /-- INTENSITY (R120). -/
  | wireIntensity (data : Byte)
  /-- SCAN_LIMIT (R121). -/
  | wireScanLimit (data : Byte)
  /-- SHUTDOWN, the wire command (R122). -/
  | wireShutdown (data : Byte)
  /-- DISPLAY_TEST, the wire command (R123). -/
  | wireDisplayTest (data : Byte)
  /-- INITIALIZE (R210). -/
  | hostInitialize
  /-- CLEAR_DISPLAY (R160). -/
  | hostClearDisplay (device : Int)
  /-- DISPLAY_TEST, the host operation (R174). -/
  | hostDisplayTest (device : Int) (enabled : Bool)
  /-- SET_DECODE_MODE (R170). -/
  | hostSetDecodeMode (device mode : Int)
  /-- SET_INTENSITY (R171). -/
  | hostSetIntensity (device level : Int)
  /-- SET_LED (R190). -/
  | hostSetLed (device row column : Int) (state : Bool)
  /-- SET_SCAN_LIMIT (R172). -/
  | hostSetScanLimit (device limit : Int)
  /-- SHUTDOWN, the host operation (R173). -/
  | hostShutdown (device : Int) (enabled : Bool)
  /-- WRITE_COMMAND (R147). -/
  | hostWriteCommand (device opcode value : Int)
  /-- SET_ROW (R194): no operands defined. -/
  | hostSetRow
  /-- SET_COL (R195): no operands defined. -/
  | hostSetCol
  deriving DecidableEq, Repr

/-- The HOST record (R86); a field an operation does not list is ignored by it. -/
structure HostOp where
  sel : BitVec 4
  device : Int
  a : Int
  b : Int
  s : Bool
  deriving DecidableEq, Repr

/-- The two encoded forms of an instruction (R80): a WIRE16 word or a HOST record. -/
inductive Encoded where
  | wire (w : Word)
  | host (op : HostOp)
  deriving DecidableEq, Repr

/-- A register inside a chip (10_state.md R33). -/
inductive ChipReg where
  | digit0 | digit1 | digit2 | digit3 | digit4 | digit5 | digit6 | digit7
  | decodeMode | intensity | scanLimit | shutdown | displayTest
  deriving DecidableEq, Repr

end Sys2Proof
end

