-- ==== Sys2Proof/WellFormed.lean ====
section
/-!
DEFINITION. Well-formed instructions: the words of the patterns of 30_encoding.md R82 (what the block's
own operations put on the wire), and host operations whose operands lie in the ranges of R88 (a). No
meaning depends on this check: an operation validates its own operands, and a chip takes any word.
-/

namespace Sys2Proof

/-- An integer operand lies in [0, hi] (R88 (a)). -/
def operandIn (hi z : Int) : Bool := decide (0 ≤ z) && decide (z ≤ hi)

/-- A device operand lies in [0, n) (R6, R88 (a)). -/
def deviceIn (n : Nat) (device : Int) : Bool := decide (0 ≤ device) && decide (device < n)

/-- The instruction is one of R82's patterns, or a host operation with operands in range on a chain of
`n` devices. -/
def Instr.wellFormed (n : Nat) : Instr → Bool
  | .wireNoop data => data == 0
  | .wireDigit0 _ | .wireDigit1 _ | .wireDigit2 _ | .wireDigit3 _ => true
  | .wireDigit4 _ | .wireDigit5 _ | .wireDigit6 _ | .wireDigit7 _ => true
  | .wireDecodeMode _ => true
  | .wireIntensity data => decide (data.toNat ≤ 15)
  | .wireScanLimit data => decide (data.toNat ≤ 7)
  | .wireShutdown data => decide (data.toNat ≤ 1)
  | .wireDisplayTest data => decide (data.toNat ≤ 1)
  | .hostInitialize => true
  | .hostClearDisplay device => deviceIn n device
  | .hostDisplayTest device _ => deviceIn n device
  | .hostSetDecodeMode device mode => deviceIn n device && operandIn 255 mode
  | .hostSetIntensity device level => deviceIn n device && operandIn 15 level
  | .hostSetLed device row column _ => deviceIn n device && operandIn 7 row && operandIn 7 column
  | .hostSetScanLimit device limit => deviceIn n device && operandIn 7 limit
  | .hostShutdown device _ => deviceIn n device
  | .hostWriteCommand device opcode value =>
    deviceIn n device && operandIn 255 opcode && operandIn 255 value
  | .hostSetRow => true
  | .hostSetCol => true

end Sys2Proof
end

