-- ==== Sys2Proof/Decode.lean ====
section
/-!
DEFINITION. Decoding and encoding (30_encoding.md R80 to R92). A wire word is selected by its opcode
byte alone and a host record by its selector alone; both decoders are total and reject by name.
-/

namespace Sys2Proof

/-- Why nothing is decoded. -/
inductive DecodeReject where
  /-- A wire word whose opcode byte is RESERVED (R89 (a)); the machine goes on, see log 9. -/
  | reservedOpcode (opcode : Byte)
  /-- A host record with `op_sel` 11 to 15 (R89 (b)); the machine answers UNIMPLEMENTED. -/
  | reservedSelector (sel : BitVec 4)
  /-- A frame that is not a whole number of two-byte slots (R59, R90). -/
  | partialSlot
  deriving DecidableEq, Repr

/-- `w = data * 256 + opcode` (R81). -/
def wireWord (data opcode : Byte) : Word := data ++ opcode

/-- `data = w[15:8]` (R81). -/
def wireData (w : Word) : Byte := w.extractLsb' 8 8

/-- `opcode = w[7:0]` (R81). -/
def wireOpcode (w : Word) : Byte := w.extractLsb' 0 8

/-- The address of a chip register: the opcode that targets it (R33, R82). -/
def ChipReg.opcode : ChipReg → Byte
  | .digit0 => Config.opDigit 0
  | .digit1 => Config.opDigit 1
  | .digit2 => Config.opDigit 2
  | .digit3 => Config.opDigit 3
  | .digit4 => Config.opDigit 4
  | .digit5 => Config.opDigit 5
  | .digit6 => Config.opDigit 6
  | .digit7 => Config.opDigit 7
  | .decodeMode => Config.opDecodeMode
  | .intensity => Config.opIntensity
  | .scanLimit => Config.opScanLimit
  | .shutdown => Config.opShutdown
  | .displayTest => Config.opDisplayTest

/-- A decoder of wire words "selects on the opcode byte `w[7:0]` alone and is total" (R82). -/
def decodeWire (w : Word) : Except DecodeReject Instr :=
  let data := wireData w
  let opcode := wireOpcode w
  if opcode = Config.opNoop then .ok (.wireNoop data)
  else if opcode = Config.opDigit 0 then .ok (.wireDigit0 data)
  else if opcode = Config.opDigit 1 then .ok (.wireDigit1 data)
  else if opcode = Config.opDigit 2 then .ok (.wireDigit2 data)
  else if opcode = Config.opDigit 3 then .ok (.wireDigit3 data)
  else if opcode = Config.opDigit 4 then .ok (.wireDigit4 data)
  else if opcode = Config.opDigit 5 then .ok (.wireDigit5 data)
  else if opcode = Config.opDigit 6 then .ok (.wireDigit6 data)
  else if opcode = Config.opDigit 7 then .ok (.wireDigit7 data)
  else if opcode = Config.opDecodeMode then .ok (.wireDecodeMode data)
  else if opcode = Config.opIntensity then .ok (.wireIntensity data)
  else if opcode = Config.opScanLimit then .ok (.wireScanLimit data)
  else if opcode = Config.opShutdown then .ok (.wireShutdown data)
  else if opcode = Config.opDisplayTest then .ok (.wireDisplayTest data)
  else .error (.reservedOpcode opcode)

/-- The host operation a record names (R85, R86). -/
def decodeHost (op : HostOp) : Except DecodeReject Instr :=
  match op.sel.toNat with
  | 0 => .ok .hostInitialize
  | 1 => .ok (.hostClearDisplay op.device)
  | 2 => .ok (.hostDisplayTest op.device op.s)
  | 3 => .ok (.hostSetDecodeMode op.device op.a)
  | 4 => .ok (.hostSetIntensity op.device op.a)
  | 5 => .ok (.hostSetLed op.device op.a op.b op.s)
  | 6 => .ok (.hostSetScanLimit op.device op.a)
  | 7 => .ok (.hostShutdown op.device op.s)
  | 8 => .ok (.hostWriteCommand op.device op.a op.b)
  | 9 => .ok .hostSetRow
  | 10 => .ok .hostSetCol
  | _ => .error (.reservedSelector op.sel)

/-- Decoding of either form (R80). -/
def decode : Encoded → Except DecodeReject Instr
  | .wire w => decodeWire w
  | .host op => decodeHost op

/-- Decoding of a FRAME (R80, R90): two bytes a slot, data byte then opcode byte, the slot of device
N - 1 first. -/
def decodeFrame : List Byte → Except DecodeReject (List Instr)
  | [] => .ok []
  | [_] => .error .partialSlot
  | data :: opcode :: rest =>
    match decodeWire (wireWord data opcode), decodeFrame rest with
    | .ok i, .ok is => .ok (i :: is)
    | .ok _, .error e => .error e
    | .error e, _ => .error e

/-- The words of an instruction (R82, R85, R86); a field an operation does not list is 0 or false. -/
def encode : Instr → Encoded
  | .wireNoop data => .wire (wireWord data Config.opNoop)
  | .wireDigit0 data => .wire (wireWord data (Config.opDigit 0))
  | .wireDigit1 data => .wire (wireWord data (Config.opDigit 1))
  | .wireDigit2 data => .wire (wireWord data (Config.opDigit 2))
  | .wireDigit3 data => .wire (wireWord data (Config.opDigit 3))
  | .wireDigit4 data => .wire (wireWord data (Config.opDigit 4))
  | .wireDigit5 data => .wire (wireWord data (Config.opDigit 5))
  | .wireDigit6 data => .wire (wireWord data (Config.opDigit 6))
  | .wireDigit7 data => .wire (wireWord data (Config.opDigit 7))
  | .wireDecodeMode data => .wire (wireWord data Config.opDecodeMode)
  | .wireIntensity data => .wire (wireWord data Config.opIntensity)
  | .wireScanLimit data => .wire (wireWord data Config.opScanLimit)
  | .wireShutdown data => .wire (wireWord data Config.opShutdown)
  | .wireDisplayTest data => .wire (wireWord data Config.opDisplayTest)
  | .hostInitialize => .host ⟨0, 0, 0, 0, false⟩
  | .hostClearDisplay device => .host ⟨1, device, 0, 0, false⟩
  | .hostDisplayTest device enabled => .host ⟨2, device, 0, 0, enabled⟩
  | .hostSetDecodeMode device mode => .host ⟨3, device, mode, 0, false⟩
  | .hostSetIntensity device level => .host ⟨4, device, level, 0, false⟩
  | .hostSetLed device row column state => .host ⟨5, device, row, column, state⟩
  | .hostSetScanLimit device limit => .host ⟨6, device, limit, 0, false⟩
  | .hostShutdown device enabled => .host ⟨7, device, 0, 0, enabled⟩
  | .hostWriteCommand device opcode value => .host ⟨8, device, opcode, value, false⟩
  | .hostSetRow => .host ⟨9, 0, 0, 0, false⟩
  | .hostSetCol => .host ⟨10, 0, 0, 0, false⟩

/-- The two bytes of a wire command in wire order (R55, R81); a host operation has none. -/
def slotBytesOf (i : Instr) : List Byte :=
  match encode i with
  | .wire w => [wireData w, wireOpcode w]
  | .host _ => []

/-- The HOST record a table word stands for: the selector in the low four bits, every operand zero
(log 17). -/
def tableHostOp (w : Nat) : HostOp := ⟨BitVec.ofNat 4 w, 0, 0, 0, false⟩

/-- What the decoder reads from a word of spec/opcode_table.json: a row of 16 bits is a WIRE16 word, a
row of up to 8 bits the selector of a HOST record, whose operands the table gives no bits (log 17). -/
def decodeTableWord (nbits w : Nat) : Option Instr :=
  if nbits = 16 then
    if w < 65536 then (decodeWire (BitVec.ofNat 16 w)).toOption else none
  else if nbits ≤ 8 then
    if w < 16 then (decodeHost (tableHostOp w)).toOption else none
  else none

end Sys2Proof
end

