-- ==== Sys2Proof/Machine/Operands.lean ====
section
/-!
DEFINITION. How each value that reaches the wire is assembled from operands (30_encoding.md R87, R88).
-/

namespace Sys2Proof.Machine

/-- `0 ≤ z ≤ hi`, a signed comparison of integers (R88 (a)). -/
def inRange (hi z : Int) : Bool := decide (0 ≤ z) && decide (z ≤ hi)

/-- The device index is in [0, n) (R6, R88 (a)). -/
def validDevice (n : Nat) (device : Int) : Bool := decide (0 ≤ device) && decide (device < n)

/-- `trunc8(z) = z mod 256` (R8, R88 (f)). -/
def trunc8 (z : Int) : Byte := BitVec.ofInt 8 z

/-- `zext_8(b)`: false is 0x00, true is 0x01 (R8). -/
def zext8 (b : Bool) : Byte := if b then 0x01 else 0x00

/-- The data byte of SHUTDOWN: `zext_8(enabled)` by the literal reading (R173, D11, log 12). -/
def shutdownData (enabled : Bool) : Byte :=
  if enabled then Config.shdnTrueData else Config.shdnTrueData ^^^ 0x01

/-- `mask = 0x80 >> column`, a logical shift (R22, R87, R88 (d)). -/
def columnMask (column : Nat) : Byte := (0x80 : Byte) >>> column

/-- The row byte with one LED switched: `old | mask` or `old & ~mask` (R87, R190). -/
def switchLed (old : Byte) (column : Nat) (state : Bool) : Byte :=
  if state then old ||| columnMask column else old &&& ~~~ columnMask column

/-- The address of `shadow[d][r]` (R50). -/
def shadowKey (d r : Nat) : Nat := 8 * d + r

/-- The address of chip d's register with an opcode (R51). -/
def chipKey (d : Nat) (opcode : Byte) : Nat := 256 * d + opcode.toNat

/-- The buffer index of device d's data byte (R24, R87). -/
def dataIndex (d : Nat) : Nat := 2 * d

/-- The buffer index of device d's opcode byte (R24, R87). -/
def opcodeIndex (d : Nat) : Nat := 2 * d + 1

end Sys2Proof.Machine
end

