-- ==== Sys2Proof/Machine/Memory.lean ====
section
/-!
DEFINITION. Arrays of bytes: the shadow framebuffer, the transmission buffer and the chips' registers
(20_memory.md R50 to R52). One canonical form: addresses strictly rising, and no entry 0x00, which is
what an unlisted address reads as (logs 3, 4, 7).
-/

namespace Sys2Proof.Machine

/-- An array of bytes by address. -/
abbrev Memory := List Host.Cell

/-- The canonical form. -/
abbrev Memory.wf (m : Memory) : Prop :=
  m.Pairwise (fun a b => a.1 < b.1) ∧ ∀ c ∈ m, c.2 ≠ 0

/-- Every listed address is below `bound`. -/
abbrev Memory.below (bound : Nat) (m : Memory) : Prop := ∀ c ∈ m, c.1 < bound

/-- The byte at an address; an unlisted address reads as 0x00. -/
def Memory.read : Memory → Nat → Byte
  | [], _ => 0
  | (b, w) :: m, a => if a = b then w else Memory.read m a

/-- The array without an entry at an address. -/
def Memory.remove (m : Memory) (a : Nat) : Memory := m.filter (fun c => c.1 != a)

/-- An entry put in its place in the order. -/
def Memory.insert : Memory → Nat → Byte → Memory
  | [], a, v => [(a, v)]
  | (b, w) :: m, a, v => if a < b then (a, v) :: (b, w) :: m else (b, w) :: Memory.insert m a v

/-- The byte at an address replaced. -/
def Memory.write (m : Memory) (a : Nat) (v : Byte) : Memory :=
  if v = 0 then Memory.remove m a else Memory.insert (Memory.remove m a) a v

end Sys2Proof.Machine
end

