-- ==== Sys2Proof/Machine/State.lean ====
section
/-!
DEFINITION. The state of one instance of the block with the reference receiver behind it (10_state.md
R20, 20_memory.md R60), the parameters of the instance, and the record of its inputs and outputs.
-/

namespace Sys2Proof.Machine

/-- The three output pins (R26). -/
inductive Pin where
  | data | clk | load
  deriving DecidableEq, Repr

/-- Whether a pin has been made an output (R20). -/
inductive PinDir where
  | unset | out
  deriving DecidableEq, Repr

/-- One value for each pin. -/
structure PerPin (α : Type) where
  data : α
  clk : α
  load : α
  deriving DecidableEq, Repr

/-- A pin event, the block's observable output (R10, D6). -/
inductive Event where
  /-- `DIR_OUT(P)`. -/
  | dirOut (p : Pin)
  /-- `WRITE(P, l)`. -/
  | write (p : Pin) (l : Bool)
  /-- `DELAY(n)`. -/
  | delay (n : Nat)
  deriving DecidableEq, Repr

/-- The result of a host operation (R231). -/
inductive Result where
  | ok | invalidIndex | invalidValue | unimplemented
  deriving DecidableEq, Repr

/-- The sub-states of `Configure(d)` (R28, R214). -/
inductive ConfigStep where
  | disableTest | setScanLimit | setDecodeMode | clearDisplay | setIntensity | exitShutdown
  deriving DecidableEq, Repr

/-- The states of the initialization sequencer (R28). -/
inductive Seq where
  | powerOn
  | pinSetup
  | latchIdleHigh
  | shutdownAll
  | configure (d : Nat) (sub : ConfigStep)
  | selfTestSweep
  | ready
  deriving DecidableEq, Repr

/-- Which byte of a slot is on the wire: the first or the second sent (R55). -/
inductive SlotHalf where
  | first | second
  deriving DecidableEq, Repr

/-- The phases of one bit (R29). -/
inductive BitPhase where
  | setData | clkHigh | clkLow
  deriving DecidableEq, Repr

/-- The position inside a frame (R29); `idle` when no frame runs. -/
inductive MicroPos where
  | idle
  | loadLow
  | bit (slot : Nat) (half : SlotHalf) (i : Nat) (phase : BitPhase)
  | loadHigh
  deriving DecidableEq, Repr

/-- The parameters of one instance (R7, R37, R266, R276); no step changes them (log 1). -/
structure Params where
  /-- N - 1, the index of the farthest device (R56): N is at least 1 by its form (R6). -/
  farthest : Nat
  /-- How many chips are really wired in the chain; R266 (2) asks for N. -/
  wired : Nat
  /-- `T_SELFTEST_MS` (R218). -/
  selfTestMs : Nat
  deriving DecidableEq, Repr

/-- The device count N (R6). -/
def Params.devices (p : Params) : Nat := p.farthest + 1

/-- The reference receiver, the chips of the chain (R60 to R62, R33): outside the block, which never reads
it (R71, R272). -/
structure Receiver where
  /-- The shift register, position 0 nearest the controller (R60). -/
  chain : List Bool
  /-- The chips' registers, chip d's register with opcode o at address 256·d + o (R33, R51). -/
  regs : Memory
  /-- The words chips took at a latch edge and have not acted on yet, each with its chip (R62). The
  model's own field, log 18. -/
  latched : List (Nat × Word)
  /-- The chip acting on its word. The model's own field, log 18. -/
  acting : Nat
  /-- How many chips took a RESERVED opcode. The model's own field, log 9. -/
  draws : Nat
  deriving DecidableEq, Repr

/-- The state. The rules name each field: R20 for the block, R60 and R33 for the receiver, R37 for what
is only recorded. -/
structure State where
  /-- The parameters of the instance. -/
  params : Params
  /-- `shadow[d][r]` at address 8·d + r (R21). -/
  shadow : Memory
  /-- `txbuf[i]` at address i (R24). -/
  txbuf : Memory
  /-- `level[P]` (R26). -/
  level : PerPin Bool
  /-- `dir[P]` (R26). -/
  dir : PerPin PinDir
  /-- The position of the initialization sequencer (R28). -/
  seq : Seq
  /-- The position inside a running frame (R29). -/
  micro : MicroPos
  /-- The chips of the chain (R60). -/
  rx : Receiver
  /-- The operations the caller has yet to present, in order (R37, R70). -/
  port : List HostOp
  /-- The trace of pin events, oldest first (R10, R37). -/
  trace : List Event
  /-- The results of the operations, oldest first (R231, R282). -/
  results : List Result
  /-- How many pin levels were left open so far. The model's own field, log 6. -/
  draws : Nat
  deriving DecidableEq, Repr

/-- Faults: the block has no trap mechanism (R230) and can detect no fault (R249), so no step ends in
one and the type is empty. -/
inductive Fault where
  deriving DecidableEq, Repr

/-- Why the model gives no step. -/
inductive Refusal where
  /-- An instruction without a meaning yet; no arm of exec raises it. Safe. -/
  | notModelled (mnemonic : String)
  /-- Raised by every host operation but INITIALIZE presented while `seq` is not `Ready` (R262, D17: the
  model gives it no step and no result). Safe. -/
  | notReady
  /-- Raised by INITIALIZE presented while `seq` is neither `PowerOn` nor `Ready`, that is inside
  another INITIALIZE (R210, R275). Safe. -/
  | sequencerRunning
  /-- Raised by every host operation presented while a frame is running (R275: it has no meaning).
  Safe. -/
  | frameRunning
  deriving DecidableEq, Repr

/-- The outcome of a step of this machine. -/
abbrev StepOutcome := Host.Outcome State Fault Refusal

/-- The device count N of the instance (R6). -/
def State.devices (s : State) : Nat := s.params.devices

/-- The state with another shadow. -/
def State.setShadow (m : Memory) (s : State) : State := { s with shadow := m }
/-- The state with another transmission buffer. -/
def State.setTxbuf (m : Memory) (s : State) : State := { s with txbuf := m }
/-- The state with other pin levels. -/
def State.setLevel (l : PerPin Bool) (s : State) : State := { s with level := l }
/-- The state with other pin directions. -/
def State.setDir (d : PerPin PinDir) (s : State) : State := { s with dir := d }
/-- The state with the sequencer elsewhere. -/
def State.setSeq (q : Seq) (s : State) : State := { s with seq := q }
/-- The state with the frame position elsewhere. -/
def State.setMicro (p : MicroPos) (s : State) : State := { s with micro := p }
/-- The state with another content of the chips. -/
def State.setRx (r : Receiver) (s : State) : State := { s with rx := r }
/-- The state with other pending operations. -/
def State.setPort (ops : List HostOp) (s : State) : State := { s with port := ops }
/-- The state with another trace. -/
def State.setTrace (es : List Event) (s : State) : State := { s with trace := es }
/-- The state with other results. -/
def State.setResults (rs : List Result) (s : State) : State := { s with results := rs }
/-- The state with another count of open pin levels. -/
def State.setDraws (n : Nat) (s : State) : State := { s with draws := n }

/-- The state at power-on of an instance with given parameters (R36, R260). `seq` and `dir` are the
spec's; every other value of a register is the model's DESIGN CHOICE (logs 3, 4, 5, 7, 8; unsafe). -/
def State.powerOn (p : Params) : State where
  params := p
  shadow := []
  txbuf := []
  level := ⟨false, false, false⟩
  dir := ⟨.unset, .unset, .unset⟩
  seq := .powerOn
  micro := .idle
  rx := ⟨List.replicate (16 * p.wired) false, [], [], 0, 0⟩
  port := []
  trace := []
  results := []
  draws := 0

/-- The state at power-on of one instance. DESIGN CHOICE, log 1: N = 1 with one chip wired; unsafe.
`T_SELFTEST_MS` stays a free value (log 2). -/
def State.reset : State := State.powerOn ⟨0, 1, Config.selfTestMs⟩

end Sys2Proof.Machine
end

