-- ==== Sys2Proof/Machine/Ops.lean ====
section
/-!
DEFINITION. The named operations over the state (00_scope.md R10): reads and writes of the shadow, the
buffer and the chips' registers, the record of events, and the drop, the block's only exception.
-/

namespace Sys2Proof.Machine

/-- The value of one pin. -/
def PerPin.get {α : Type} (v : PerPin α) : Pin → α
  | .data => v.data
  | .clk => v.clk
  | .load => v.load

/-- The values with one pin's replaced. -/
def PerPin.put {α : Type} (v : PerPin α) (p : Pin) (x : α) : PerPin α :=
  match p with
  | .data => { v with data := x }
  | .clk => { v with clk := x }
  | .load => { v with load := x }

/-- Read of `shadow[d][r]` (R10). -/
def shadowAt (s : State) (d r : Nat) : Byte := s.shadow.read (shadowKey d r)

/-- `shadow[d][r] <- v` (R10). -/
def writeShadow (d r : Nat) (v : Byte) (s : State) : State :=
  s.setShadow (s.shadow.write (shadowKey d r) v)

/-- Read of `txbuf[i]` (R10). -/
def txbufAt (s : State) (i : Nat) : Byte := s.txbuf.read i

/-- `txbuf[i] <- v` (R10). -/
def writeTxbuf (i : Nat) (v : Byte) (s : State) : State := s.setTxbuf (s.txbuf.write i v)

/-- `for i from 0 to k - 1: txbuf[i] <- 0x00` (R143). -/
def clearTxbuf : Nat → State → State
  | 0, s => s
  | k + 1, s => writeTxbuf k 0 (clearTxbuf k s)

/-- Chip d's register (R33); outside the block, read by claims only. -/
def chipReg (s : State) (d : Nat) (reg : ChipReg) : Byte := s.rx.regs.read (chipKey d reg.opcode)

/-- The effect of a wire command that names a register: the chip that acts writes its data byte there
(R62, R111 to R123). -/
def writeReg (reg : ChipReg) (data : Byte) (r : Receiver) : Receiver :=
  { r with regs := r.regs.write (chipKey r.acting reg.opcode) data }

/-- The registers of a chip (R33). -/
def chipRegList : List ChipReg :=
  [.digit0, .digit1, .digit2, .digit3, .digit4, .digit5, .digit6, .digit7,
   .decodeMode, .intensity, .scanLimit, .shutdown, .displayTest]

/-- What a RESERVED opcode does to the chip that acts: any value in each of its registers (R89 (a), I6:
free values, log 9). -/
def scrambleChip (r : Receiver) : Receiver :=
  let t := chipRegList.foldl
    (fun t reg => writeReg reg (Config.reservedChipByte r.draws reg.opcode) t) r
  { t with draws := r.draws + 1 }

/-- An event appended to the trace (R10). -/
def recordEvent (e : Event) (s : State) : State := s.setTrace (s.trace ++ [e])

/-- `delay_ms(n)`: the event and no other change (R10, R244). -/
def delayMs (n : Nat) (s : State) : State := recordEvent (.delay n) s

/-- `seq <- S` (R10). -/
def gotoSeq (q : Seq) (s : State) : State := s.setSeq q

/-- `dir_out(P)` (R10): the direction and the event. After it the pin drives a level the spec leaves open
until its next write (R264, D13, I8: any value), so its level becomes a free value (log 6); safe. -/
def dirOut (p : Pin) (s : State) : State :=
  recordEvent (.dirOut p)
    ((((s.setDir (s.dir.put p .out)).setLevel (s.level.put p (Config.pinLevel s.draws))).setDraws
      (s.draws + 1)))

/-- `drop(code)`, the block's only exception (R10, R239): the operation ends with a result and no other
change. There is no return from it (R240). -/
def drop (code : Result) (s : State) : State × Result := (s, code)

/-- The normal end of an operation: `return OK` (R10). -/
def returnOk (s : State) : State × Result := (s, .ok)

/-- The result of a host operation handed to the caller (R231). -/
def reportResult (end_ : State × Result) : State :=
  end_.1.setResults (end_.1.results ++ [end_.2])

end Sys2Proof.Machine
end

