-- ==== Sys2Proof/Machine/Flags.lean ====
section
/-!
DEFINITION. The block has no flags (10_state.md R31). What stands in their place is the result code of
an operation and the checks that choose it (60_exceptions.md R231 to R238), and the two conditions under
which an operation is accepted at all (70_reset_and_hazards.md R262, R275).
-/

namespace Sys2Proof.Machine

/-- The number of a result code (R231). -/
def Result.code : Result → Nat
  | .ok => 0
  | .invalidIndex => 1
  | .invalidValue => 2
  | .unimplemented => 3

/-- The checks of an operation in their order, then its body: the first check that fails drops the
operation with its code before any state changes (R238, R239). -/
def checked : List (Bool × Result) → (State → State × Result) → State → State × Result
  | [], body, s => body s
  | (holds, code) :: rest, body, s => if holds then checked rest body s else drop code s

/-- The check of a device index (R232). -/
def deviceCheck (s : State) (device : Int) : Bool × Result :=
  (validDevice s.devices device, .invalidIndex)

/-- The check of a value against [0, hi] (R233 to R235). -/
def valueCheck (hi z : Int) : Bool × Result := (inRange hi z, .invalidValue)

/-- `require seq = Ready`: any other operation is refused, with no step and no result (R262, D17), and so
is one presented while a frame runs (R275). -/
def whenReady (body : State → State × Result) (s : State) : StepOutcome :=
  if s.micro = .idle then
    if s.seq = .ready then .next (reportResult (body s)) else .refused .notReady
  else .refused .frameRunning

/-- `require seq = PowerOn or seq = Ready` (R210). -/
def whenPowerOnOrReady (body : State → State × Result) (s : State) : StepOutcome :=
  if s.micro = .idle then
    if s.seq = .powerOn ∨ s.seq = .ready then .next (reportResult (body s))
    else .refused .sequencerRunning
  else .refused .frameRunning

end Sys2Proof.Machine
end

