-- ==== Sys2Proof/Machine/Wire.lean ====
section
/-!
DEFINITION. The meanings of the fourteen wire commands at the chip that takes one (40_wire_commands.md
R110 to R123): the whole data byte goes into the register the opcode names. No flag, no exception. `chip…`
is the effect on the chips, which the latch edge runs; `exec…` is the instruction.
-/

namespace Sys2Proof.Machine

/-- NOOP changes no register, whatever its data (R110). -/
def chipNoop (_data : Byte) (r : Receiver) : Receiver := r

/-- DIGIT0: `chip[d].digit[0] <- data` (R111). -/
def chipDigit0 (data : Byte) (r : Receiver) : Receiver := writeReg .digit0 data r

/-- DIGIT1: `chip[d].digit[1] <- data` (R112). -/
def chipDigit1 (data : Byte) (r : Receiver) : Receiver := writeReg .digit1 data r

/-- DIGIT2: `chip[d].digit[2] <- data` (R113). -/
def chipDigit2 (data : Byte) (r : Receiver) : Receiver := writeReg .digit2 data r

/-- DIGIT3: `chip[d].digit[3] <- data` (R114). -/
def chipDigit3 (data : Byte) (r : Receiver) : Receiver := writeReg .digit3 data r

/-- DIGIT4: `chip[d].digit[4] <- data` (R115). -/
def chipDigit4 (data : Byte) (r : Receiver) : Receiver := writeReg .digit4 data r

/-- DIGIT5: `chip[d].digit[5] <- data` (R116). -/
def chipDigit5 (data : Byte) (r : Receiver) : Receiver := writeReg .digit5 data r

/-- DIGIT6: `chip[d].digit[6] <- data` (R117). -/
def chipDigit6 (data : Byte) (r : Receiver) : Receiver := writeReg .digit6 data r

/-- DIGIT7: `chip[d].digit[7] <- data` (R118). -/
def chipDigit7 (data : Byte) (r : Receiver) : Receiver := writeReg .digit7 data r

/-- DECODE_MODE: `chip[d].decode_mode <- data` (R119). -/
def chipDecodeMode (data : Byte) (r : Receiver) : Receiver := writeReg .decodeMode data r

/-- INTENSITY: `chip[d].intensity <- data` (R120). -/
def chipIntensity (data : Byte) (r : Receiver) : Receiver := writeReg .intensity data r

/-- SCAN_LIMIT: `chip[d].scan_limit <- data` (R121). -/
def chipScanLimit (data : Byte) (r : Receiver) : Receiver := writeReg .scanLimit data r

/-- SHUTDOWN: `chip[d].shutdown <- data` (R122). -/
def chipShutdown (data : Byte) (r : Receiver) : Receiver := writeReg .shutdown data r

/-- DISPLAY_TEST: `chip[d].display_test <- data` (R123). -/
def chipDisplayTest (data : Byte) (r : Receiver) : Receiver := writeReg .displayTest data r

/-- The wire command (R110). -/
def execWireNoop (data : Byte) (s : State) : StepOutcome := .next (s.setRx (chipNoop data s.rx))

/-- The wire command (R111). -/
def execWireDigit0 (data : Byte) (s : State) : StepOutcome := .next (s.setRx (chipDigit0 data s.rx))

/-- The wire command (R112). -/
def execWireDigit1 (data : Byte) (s : State) : StepOutcome := .next (s.setRx (chipDigit1 data s.rx))

/-- The wire command (R113). -/
def execWireDigit2 (data : Byte) (s : State) : StepOutcome := .next (s.setRx (chipDigit2 data s.rx))

/-- The wire command (R114). -/
def execWireDigit3 (data : Byte) (s : State) : StepOutcome := .next (s.setRx (chipDigit3 data s.rx))

/-- The wire command (R115). -/
def execWireDigit4 (data : Byte) (s : State) : StepOutcome := .next (s.setRx (chipDigit4 data s.rx))

/-- The wire command (R116). -/
def execWireDigit5 (data : Byte) (s : State) : StepOutcome := .next (s.setRx (chipDigit5 data s.rx))

/-- The wire command (R117). -/
def execWireDigit6 (data : Byte) (s : State) : StepOutcome := .next (s.setRx (chipDigit6 data s.rx))

/-- The wire command (R118). -/
def execWireDigit7 (data : Byte) (s : State) : StepOutcome := .next (s.setRx (chipDigit7 data s.rx))

/-- The wire command (R119). -/
def execWireDecodeMode (data : Byte) (s : State) : StepOutcome := .next (s.setRx (chipDecodeMode data s.rx))

/-- The wire command (R120). -/
def execWireIntensity (data : Byte) (s : State) : StepOutcome := .next (s.setRx (chipIntensity data s.rx))

/-- The wire command (R121). -/
def execWireScanLimit (data : Byte) (s : State) : StepOutcome := .next (s.setRx (chipScanLimit data s.rx))

/-- The wire command (R122). -/
def execWireShutdown (data : Byte) (s : State) : StepOutcome := .next (s.setRx (chipShutdown data s.rx))

/-- The wire command (R123). -/
def execWireDisplayTest (data : Byte) (s : State) : StepOutcome := .next (s.setRx (chipDisplayTest data s.rx))

end Sys2Proof.Machine
end

