-- ==== Sys2Proof/Machine/Receiver.lean ====
section
/-!
DEFINITION. The reference receiver (20_memory.md R60 to R62): what the chain does at an edge of CLK and
at an edge of LOAD. Log 18.
-/

namespace Sys2Proof.Machine

/-- A chip runs the wire command it took. A word never decodes to a host operation, so those arms are not
reached. -/
def runWire (i : Instr) (r : Receiver) : Receiver :=
  match i with
  | .wireNoop data => chipNoop data r
  | .wireDigit0 data => chipDigit0 data r
  | .wireDigit1 data => chipDigit1 data r
  | .wireDigit2 data => chipDigit2 data r
  | .wireDigit3 data => chipDigit3 data r
  | .wireDigit4 data => chipDigit4 data r
  | .wireDigit5 data => chipDigit5 data r
  | .wireDigit6 data => chipDigit6 data r
  | .wireDigit7 data => chipDigit7 data r
  | .wireDecodeMode data => chipDecodeMode data r
  | .wireIntensity data => chipIntensity data r
  | .wireScanLimit data => chipScanLimit data r
  | .wireShutdown data => chipShutdown data r
  | .wireDisplayTest data => chipDisplayTest data r
  | .hostInitialize => r
  | .hostClearDisplay _ => r
  | .hostDisplayTest _ _ => r
  | .hostSetDecodeMode _ _ => r
  | .hostSetIntensity _ _ => r
  | .hostSetLed _ _ _ _ => r
  | .hostSetScanLimit _ _ => r
  | .hostShutdown _ _ => r
  | .hostWriteCommand _ _ _ => r
  | .hostSetRow => r
  | .hostSetCol => r

/-- Chip `d` acts on the word it took (R62); a RESERVED opcode leaves any value in its registers (R89
(a), I6, log 9). -/
def takeWord (r : Receiver) (dw : Nat × Word) : Receiver :=
  match decodeWire dw.2 with
  | .ok i => runWire i { r with acting := dw.1 }
  | .error _ => scrambleChip { r with acting := dw.1 }

/-- A bit list as a number, its first bit the least significant. -/
def bitsToNat : List Bool → Nat
  | [] => 0
  | b :: bs => b.toNat + 2 * bitsToNat bs

/-- The 16 bits of a slot in the order received as a WIRE16 word: data above opcode (R62, R81), by the
slot order of the instance (D7). -/
def slotWord (received : Word) : Word :=
  match Config.slotOrder with
  | .dataFirst => received
  | .opcodeFirst => wireWord (wireOpcode received) (wireData received)

/-- The word chip `d` holds: positions 16d to 16d + 15 of the shift register, the farthest position the
bit received first (R60, R61). -/
def chipWord (chain : List Bool) (d : Nat) : Word :=
  slotWord (BitVec.ofNat 16 (bitsToNat ((chain.drop (16 * d)).take 16)))

/-- What every wired chip takes at a rising edge of LOAD (R62). DESIGN CHOICE, log 22: with M > N wired chips the
chips N to M - 1 take the late slots that R276 derives from R60, where I14 says a model treats them as receiving any
value; unsafe for a claim about those chips. -/
def wordsHeld (wired : Nat) (chain : List Bool) : List (Nat × Word) :=
  (List.range wired).map (fun d => (d, chipWord chain d))

/-- The chips act on the words they took, and no word is left. -/
def drainLatched (r : Receiver) : Receiver :=
  { r.latched.foldl takeWord { r with latched := [] } with acting := r.acting }

/-- Rising edge of LOAD: every chip at once takes the 16 bits it holds as one wire command (R62). -/
def latchEdge (wired : Nat) (r : Receiver) : Receiver :=
  drainLatched { r with latched := wordsHeld wired r.chain }

/-- Rising edge of CLK: every bit moves one position away from the controller and the level of DATA enters
position 0; the bit at the far end is lost (R60). -/
def shiftEdge (wired : Nat) (data : Bool) (r : Receiver) : Receiver :=
  { r with chain := (data :: r.chain).take (16 * wired) }

/-- What the chain does when a pin is written, `level` being the levels before: a rising edge of CLK shifts, a
rising edge of LOAD latches, nothing else does anything (R60, R62). -/
def onPinWrite (wired : Nat) (level : PerPin Bool) (p : Pin) (l : Bool) (r : Receiver) : Receiver :=
  match p with
  | .data => r
  | .clk => if l && !level.clk then shiftEdge wired level.data r else r
  | .load => if l && !level.load then latchEdge wired r else r

end Sys2Proof.Machine
end

