-- ==== Sys2Proof/Machine/Serializer.lean ====
section
/-!
DEFINITION. The bit serializer (41_bit_serializer.md R130) and the frame transmitter with its latch pulse
(42_frame_transmitter.md R141, R146).
-/

namespace Sys2Proof.Machine

/-- `pin(P) <- l` (R10): the chain sees the edge, the level is the one written, the event is appended even
when the level was the same already. -/
def pin (p : Pin) (l : Bool) (s : State) : State :=
  recordEvent (.write p l)
    ((s.setRx (onPinWrite s.params.wired s.level p l s.rx)).setLevel (s.level.put p l))

/-- One bit: DATA, CLK high, CLK low (R130). -/
def sendBit (b : Bool) (s : State) : State := pin .clk false (pin .clk true (pin .data b s))

/-- Bits k - 1 downto 0 of a byte (R130's loop). -/
def sendBits (value : Byte) : Nat → State → State
  | 0, s => s
  | k + 1, s => sendBits value k (sendBit (value.getLsbD k) s)

/-- `serialize_byte(value)`: bits 7 downto 0 (R130). -/
def serializeByte (value : Byte) (s : State) : State := sendBits value 8 s

/-- The byte of device `d`'s slot that is sent first or second (R55, D7). -/
def slotByte (s : State) (d : Nat) (half : SlotHalf) : Byte :=
  match Config.slotOrder, half with
  | .dataFirst, .first => txbufAt s (dataIndex d)
  | .dataFirst, .second => txbufAt s (opcodeIndex d)
  | .opcodeFirst, .first => txbufAt s (opcodeIndex d)
  | .opcodeFirst, .second => txbufAt s (dataIndex d)

/-- The two bytes of device `d`'s slot (R141). -/
def sendSlot (d : Nat) (s : State) : State :=
  serializeByte (slotByte s d .second) (serializeByte (slotByte s d .first) s)

/-- The slots of devices k - 1 downto 0, farthest first (R141's loop). -/
def sendSlots : Nat → State → State
  | 0, s => s
  | k + 1, s => sendSlots k (sendSlot k s)

/-- `transmit_chain(txbuf)` (R141): LOAD low, every slot from the farthest device to the nearest, LOAD
high. -/
def transmitChain (s : State) : State :=
  pin .load true (sendSlots s.devices (pin .load false s))

end Sys2Proof.Machine
end

