-- ==== Sys2Proof/Machine/Encoder.lean ====
section
/-!
DEFINITION. The register-command encoder: `write_command` and the raw host operation WRITE_COMMAND
(42_frame_transmitter.md R143, R147).
-/

namespace Sys2Proof.Machine

/-- The buffer rebuilt for one command: every byte zero, then the target's pair (R143, R144). -/
def buildBuffer (d : Nat) (opcode value : Byte) (s : State) : State :=
  writeTxbuf (opcodeIndex d) opcode (writeTxbuf (dataIndex d) value (clearTxbuf (2 * s.devices) s))

/-- One logical write to a device of the chain (R143): the buffer, then the frame. -/
def sendCommand (d : Nat) (opcode value : Byte) (s : State) : State :=
  transmitChain (buildBuffer d opcode value s)

/-- `write_command(device_index, opcode, value)` (R143). -/
def writeCommand (device : Int) (opcode value : Byte) (s : State) : State × Result :=
  checked [deviceCheck s device] (fun t => returnOk (sendCommand device.toNat opcode value t)) s

/-- WRITE_COMMAND: operands reduced by `trunc8`; the shadow is not touched (R147, R148). -/
def execHostWriteCommand (device opcode value : Int) (s : State) : StepOutcome :=
  whenReady (writeCommand device (trunc8 opcode) (trunc8 value)) s

end Sys2Proof.Machine
end

