-- ==== Sys2Proof/Machine/ConfigOps.lean ====
section
/-!
DEFINITION. The five configuration operations (44_config_ops.md R170 to R174). The bodies stand alone
because INITIALIZE calls them before `seq` is `Ready`.
-/

namespace Sys2Proof.Machine

/-- The body of SET_DECODE_MODE: no range check on the mode (R170). -/
def setDecodeMode (device mode : Int) (s : State) : State × Result :=
  checked [deviceCheck s device]
    (fun t => returnOk (writeCommand device Config.opDecodeMode (trunc8 mode) t).1) s

/-- The body of SET_INTENSITY: device, then level in [0, 15] (R171). -/
def setIntensity (device level : Int) (s : State) : State × Result :=
  checked [deviceCheck s device, valueCheck 15 level]
    (fun t => returnOk (writeCommand device Config.opIntensity (trunc8 level) t).1) s

/-- The body of SET_SCAN_LIMIT: device, then limit in [0, 7] (R172). -/
def setScanLimit (device limit : Int) (s : State) : State × Result :=
  checked [deviceCheck s device, valueCheck 7 limit]
    (fun t => returnOk (writeCommand device Config.opScanLimit (trunc8 limit) t).1) s

/-- The body of SHUTDOWN (R173). -/
def shutdownDevice (device : Int) (enabled : Bool) (s : State) : State × Result :=
  checked [deviceCheck s device]
    (fun t => returnOk (writeCommand device Config.opShutdown (shutdownData enabled) t).1) s

/-- The body of DISPLAY_TEST (R174). -/
def displayTest (device : Int) (enabled : Bool) (s : State) : State × Result :=
  checked [deviceCheck s device]
    (fun t => returnOk (writeCommand device Config.opDisplayTest (zext8 enabled) t).1) s

/-- SET_DECODE_MODE (R170). -/
def execHostSetDecodeMode (device mode : Int) (s : State) : StepOutcome :=
  whenReady (setDecodeMode device mode) s

/-- SET_INTENSITY (R171). -/
def execHostSetIntensity (device level : Int) (s : State) : StepOutcome :=
  whenReady (setIntensity device level) s

/-- SET_SCAN_LIMIT (R172). -/
def execHostSetScanLimit (device limit : Int) (s : State) : StepOutcome :=
  whenReady (setScanLimit device limit) s

/-- SHUTDOWN (R173). -/
def execHostShutdown (device : Int) (enabled : Bool) (s : State) : StepOutcome :=
  whenReady (shutdownDevice device enabled) s

/-- DISPLAY_TEST (R174). -/
def execHostDisplayTest (device : Int) (enabled : Bool) (s : State) : StepOutcome :=
  whenReady (displayTest device enabled) s

end Sys2Proof.Machine
end

