-- ==== Sys2Proof/Machine/ShadowOps.lean ====
section
/-!
DEFINITION. CLEAR_DISPLAY (43_shadow_framebuffer.md R160).
-/

namespace Sys2Proof.Machine

/-- The row indices in the order of R160 (D14: ascending). -/
def rowList : List Nat := [0, 1, 2, 3, 4, 5, 6, 7]

/-- One row: the shadow first, then the chip (R160, R23). -/
def clearRow (device : Int) (s : State) (r : Nat) : State :=
  (writeCommand device (Config.opDigit r) 0 (writeShadow device.toNat r 0 s)).1

/-- `clear_device(device)` (R160): the body INITIALIZE calls too. -/
def clearDevice (device : Int) (s : State) : State × Result :=
  checked [deviceCheck s device] (fun t => returnOk (rowList.foldl (clearRow device) t)) s

/-- CLEAR_DISPLAY (R160). -/
def execHostClearDisplay (device : Int) (s : State) : StepOutcome := whenReady (clearDevice device) s

end Sys2Proof.Machine
end

