-- ==== Sys2Proof/Machine/Init.lean ====
section
/-!
DEFINITION. INITIALIZE, the initialization sequencer (46_init_sequencer.md R210 to R219).
-/

namespace Sys2Proof.Machine

/-- `for d from 0 to k - 1: body d` (D14: ascending). -/
def forDevices (k : Nat) (body : Nat → State → State) (s : State) : State :=
  (List.range k).foldl (fun t d => body d t) s

/-- State PinSetup (R211, D12). -/
def initPinSetup (s : State) : State :=
  dirOut .load (dirOut .clk (dirOut .data (gotoSeq .pinSetup s)))

/-- State LatchIdleHigh (R212). -/
def initLatchIdleHigh (s : State) : State := pin .load true (gotoSeq .latchIdleHigh s)

/-- State ShutdownAll (R213, D11). -/
def initShutdownAll (s : State) : State :=
  forDevices s.devices (fun d t => (shutdownDevice d true t).1) (gotoSeq .shutdownAll s)

/-- One sub-state of Configure(d): the sequencer moves there, then the call (R210). -/
def configStep (d : Nat) (sub : ConfigStep) (call : State → State × Result) (s : State) : State :=
  (call (gotoSeq (.configure d sub) s)).1

/-- State Configure(d), its six sub-states in strict order (R214). -/
def configureDevice (d : Nat) (s : State) : State :=
  configStep d .exitShutdown (shutdownDevice d false) <|
  configStep d .setIntensity (setIntensity d Config.initIntensity) <|
  configStep d .clearDisplay (clearDevice d) <|
  configStep d .setDecodeMode (setDecodeMode d Config.initDecodeMode) <|
  configStep d .setScanLimit (setScanLimit d Config.initScanLimit) <|
  configStep d .disableTest (displayTest d false) s

/-- The self-test of one device: test on, one delay, test off (R218, D15). -/
def selfTestDevice (d : Nat) (s : State) : State :=
  (displayTest d false (delayMs s.params.selfTestMs (displayTest d true s).1)).1

/-- State SelfTestSweep (R218). -/
def initSelfTestSweep (s : State) : State :=
  forDevices s.devices selfTestDevice (gotoSeq .selfTestSweep s)

/-- The whole sequence (R210), to its terminal state Ready (R219). -/
def runInitialize (s : State) : State × Result :=
  returnOk <| gotoSeq .ready <| initSelfTestSweep <|
    (fun t => forDevices t.devices configureDevice t) <|
    initShutdownAll <| initLatchIdleHigh <| initPinSetup s

/-- INITIALIZE (R210): accepted in PowerOn and in Ready (D17). -/
def execHostInitialize (s : State) : StepOutcome := whenPowerOnOrReady runInitialize s

end Sys2Proof.Machine
end

