-- ==== Sys2Proof/Machine/LedOps.lean ====
section
/-!
DEFINITION. The LED operations (45_led_ops.md R190 to R195) and the selectors that name no operation
(30_encoding.md R89 (b)).
-/

namespace Sys2Proof.Machine

/-- SET_LED on valid operands: the shadow byte with one bit switched, then one frame with the updated
byte (R190, R23). -/
def switchAndSend (device row column : Int) (state : Bool) (s : State) : State :=
  let d := device.toNat
  let r := row.toNat
  let t := writeShadow d r (switchLed (shadowAt s d r) column.toNat state) s
  (writeCommand device (Config.opDigit r) (shadowAt t d r) t).1

/-- The body of SET_LED: device, then row, then column (R190, R238). -/
def setLed (device row column : Int) (state : Bool) (s : State) : State × Result :=
  checked [deviceCheck s device, valueCheck 7 row, valueCheck 7 column]
    (fun t => returnOk (switchAndSend device row column state t)) s

/-- SET_LED (R190). -/
def execHostSetLed (device row column : Int) (state : Bool) (s : State) : StepOutcome :=
  whenReady (setLed device row column state) s

/-- SET_ROW: result UNIMPLEMENTED and no effect, whatever the operands (R194, R236). -/
def execHostSetRow (s : State) : StepOutcome := whenReady (drop .unimplemented) s

/-- SET_COL: result UNIMPLEMENTED and no effect, whatever the operands (R195, R236). -/
def execHostSetCol (s : State) : StepOutcome := whenReady (drop .unimplemented) s

/-- Selectors 11 to 15 behave as the stubs (R89 (b), R236, D27). -/
def execReservedSelector (s : State) : StepOutcome := whenReady (drop .unimplemented) s

end Sys2Proof.Machine
end

