-- ==== Sys2Proof/Machine/Dispatch.lean ====
section
/-!
DEFINITION. One arm for each instruction, each a direct call of its meaning.
-/

namespace Sys2Proof.Machine

def exec (i : Instr) (s : State) : Host.Outcome State Fault Refusal :=
  match i with
  | .wireNoop data => Sys2Proof.Machine.execWireNoop data s
  | .wireDigit0 data => Sys2Proof.Machine.execWireDigit0 data s
  | .wireDigit1 data => Sys2Proof.Machine.execWireDigit1 data s
  | .wireDigit2 data => Sys2Proof.Machine.execWireDigit2 data s
  | .wireDigit3 data => Sys2Proof.Machine.execWireDigit3 data s
  | .wireDigit4 data => Sys2Proof.Machine.execWireDigit4 data s
  | .wireDigit5 data => Sys2Proof.Machine.execWireDigit5 data s
  | .wireDigit6 data => Sys2Proof.Machine.execWireDigit6 data s
  | .wireDigit7 data => Sys2Proof.Machine.execWireDigit7 data s
  | .wireDecodeMode data => Sys2Proof.Machine.execWireDecodeMode data s
  | .wireIntensity data => Sys2Proof.Machine.execWireIntensity data s
  | .wireScanLimit data => Sys2Proof.Machine.execWireScanLimit data s
  | .wireShutdown data => Sys2Proof.Machine.execWireShutdown data s
  | .wireDisplayTest data => Sys2Proof.Machine.execWireDisplayTest data s
  | .hostInitialize => Sys2Proof.Machine.execHostInitialize s
  | .hostClearDisplay device => Sys2Proof.Machine.execHostClearDisplay device s
  | .hostDisplayTest device enabled => Sys2Proof.Machine.execHostDisplayTest device enabled s
  | .hostSetDecodeMode device mode => Sys2Proof.Machine.execHostSetDecodeMode device mode s
  | .hostSetIntensity device level => Sys2Proof.Machine.execHostSetIntensity device level s
  | .hostSetLed device row column state => Sys2Proof.Machine.execHostSetLed device row column state s
  | .hostSetScanLimit device limit => Sys2Proof.Machine.execHostSetScanLimit device limit s
  | .hostShutdown device enabled => Sys2Proof.Machine.execHostShutdown device enabled s
  | .hostWriteCommand device opcode value => Sys2Proof.Machine.execHostWriteCommand device opcode value s
  | .hostSetRow => Sys2Proof.Machine.execHostSetRow s
  | .hostSetCol => Sys2Proof.Machine.execHostSetCol s

end Sys2Proof.Machine
end

