-- ==== Sys2Proof/Machine/Micro.lean ====
section
/-!
DEFINITION. A frame one pin event at a time: the micro-position of 10_state.md R29 and how it advances.
`transmitChain` is the same frame at once (R29, D1: the two give the same trace).
-/

namespace Sys2Proof.Machine

/-- A frame begins: the position before its first event. -/
def startFrame (s : State) : State := s.setMicro .loadLow

/-- The position after the last phase of a bit: the next bit of the byte, else the other byte of the slot,
else the next nearer slot, else the latch (R29). -/
def afterBit (slot : Nat) (half : SlotHalf) (i : Nat) : MicroPos :=
  match i, half, slot with
  | i + 1, half, slot => .bit slot half i .setData
  | 0, .first, slot => .bit slot .second 7 .setData
  | 0, .second, slot + 1 => .bit slot .first 7 .setData
  | 0, .second, 0 => .loadHigh

/-- One pin event of the running frame (R29); nothing when none runs. -/
def microStep (s : State) : State :=
  match s.micro with
  | .idle => s
  | .loadLow => (pin .load false s).setMicro (.bit s.params.farthest .first 7 .setData)
  | .bit slot half i .setData =>
    (pin .data ((slotByte s slot half).getLsbD i) s).setMicro (.bit slot half i .clkHigh)
  | .bit slot half i .clkHigh => (pin .clk true s).setMicro (.bit slot half i .clkLow)
  | .bit slot half i .clkLow => (pin .clk false s).setMicro (afterBit slot half i)
  | .loadHigh => (pin .load true s).setMicro .idle

/-- `k` pin events. -/
def microRun : Nat → State → State
  | 0, s => s
  | k + 1, s => microRun k (microStep s)

end Sys2Proof.Machine
end

