-- ==== Sys2Proof/Machine/Fetch.lean ====
section
/-!
DEFINITION. What acts next, and where it takes its instruction from: a chip from the words taken at a latch
edge (20_memory.md R62), a running frame from its position (10_state.md R29), the block from the operation
port (20_memory.md R70, D1).
-/

namespace Sys2Proof.Machine

/-- What acts next. -/
inductive Fetched where
  /-- Chip `d` acts on a waiting word in a step of its own; the state without that word, the chip the one that acts.
  DESIGN CHOICE, log 18 (by R62 the chips act at the edge at once). -/
  | wire (d : Nat) (w : Word) (s : State)
  /-- A frame is running: one pin event a step. DESIGN CHOICE, log 13 (R29 allows it); safe. -/
  | frame (s : State)
  /-- The caller presents an operation; the state without it. -/
  | host (op : HostOp) (s : State)
  /-- No operation is presented: the step leaves the state as it is. DESIGN CHOICE, log 14 (R281 only names the idle
  state); safe. -/
  | idle (s : State)

/-- Words taken at a latch edge come first, then the running frame, then the port. -/
def fetch (s : State) : Fetched :=
  match s.rx.latched with
  | (d, w) :: rest => .wire d w (s.setRx { s.rx with latched := rest, acting := d })
  | [] =>
    if s.micro = .idle then
      match s.port with
      | op :: rest => .host op (s.setPort rest)
      | [] => .idle s
    else .frame s

/-- Chip `d` holds a word of spec/opcode_table.json at a latch edge (log 17). -/
def placeWire (w : Word) (s : State) : State := s.setRx { s.rx with latched := (0, w) :: s.rx.latched }

/-- The caller presents an operation next: it stands first at the port, no frame runs and no word waits. An
operation other than INITIALIZE is accepted at Ready alone (R262), so the sequencer stands there (log
17). -/
def placeHost (op : HostOp) (s : State) : State :=
  let t := ((s.setPort (op :: s.port)).setMicro .idle).setRx { s.rx with latched := [] }
  if op.sel = 0 ∧ s.seq = .powerOn then t else t.setSeq .ready

/-- An instruction placed where the next step fetches it, by the width of its row in the table (log
17). -/
def placeTableWord (nbits w : Nat) (s : State) : State :=
  if nbits ≤ 8 then placeHost (tableHostOp w) s else placeWire (BitVec.ofNat 16 w) s

end Sys2Proof.Machine
end

