-- ==== Sys2Proof/Machine/Step.lean ====
section
/-!
DEFINITION. One step: a chip acts on one word, or a running frame makes one pin event, or the block runs one
host operation to its end (D1, R29, R275).
-/

namespace Sys2Proof.Machine

/-- One step. A wire word with a RESERVED opcode and a host record with a reserved selector decode to no
instruction, and the machine goes on as the spec says of each (R89). -/
def step (s : State) : Host.Outcome State Fault Refusal :=
  match fetch s with
  | .wire d w t =>
    match decodeWire w with
    | .ok i => exec i t
    | .error _ => .next (t.setRx (takeWord t.rx (d, w)))
  | .frame t => .next (microStep t)
  | .host op t =>
    match decodeHost op with
    | .ok i => exec i t
    | .error _ => execReservedSelector t
  | .idle t => .next t

/-- The state with a word of spec/opcode_table.json placed where the next step fetches its instruction (log
17). -/
def State.withFetchWord (s : State) (nbits w : Nat) : State := placeTableWord nbits w s

end Sys2Proof.Machine
end

