-- ==== Sys2Proof/Safety.lean ====
section
/-!
DEFINITION. The terms in which claims about the block are made (70_reset_and_hazards.md R282): the events of
bits, bytes, frames and operations as plain lists, what an observer of the pins reads back, what one frame
leaves behind, and the invariants.
-/

namespace Sys2Proof.Safety

open Sys2Proof.Machine

/-- The bits of a byte in wire order (R54). -/
def bitsMsbFirst (v : Byte) : List Bool :=
  [v.getLsbD 7, v.getLsbD 6, v.getLsbD 5, v.getLsbD 4, v.getLsbD 3, v.getLsbD 2, v.getLsbD 1,
   v.getLsbD 0]

/-- The three events of a bit (R130). -/
def bitEvents (b : Bool) : List Event := [.write .data b, .write .clk true, .write .clk false]

/-- The 24 events of a byte (R130, R131). -/
def byteEvents (v : Byte) : List Event := (bitsMsbFirst v).flatMap bitEvents

/-- The events of a frame, from its bytes in wire order (R141, R142). -/
def frameEvents (bytes : List Byte) : List Event :=
  .write .load false :: (bytes.flatMap byteEvents ++ [.write .load true])

/-- The bytes of a buffer in wire order for the `k` nearest devices: `W` of R57, built slot by slot from
the farthest. -/
def wireBytes (txbuf : Memory) : Nat → List Byte
  | 0 => []
  | k + 1 => txbuf.read (2 * k) :: txbuf.read (2 * k + 1) :: wireBytes txbuf k

/-- The frame of a valid `write_command(d, o, v)` on a chain of `n` (R145). -/
def frameBytes (n d : Nat) (opcode value : Byte) : List Byte :=
  List.replicate (2 * (n - 1 - d)) 0 ++ [value, opcode] ++ List.replicate (2 * d) 0

/-- The events of a valid `write_command(d, o, v)` (R145). -/
def commandEvents (n d : Nat) (opcode value : Byte) : List Event :=
  frameEvents (frameBytes n d opcode value)

/-- The events of CLEAR_DISPLAY(d): opcodes 1 to 8, data 0 (R160, R161). -/
def clearEvents (n d : Nat) : List Event :=
  ([1, 2, 3, 4, 5, 6, 7, 8] : List Byte).flatMap (fun o => commandEvents n d o 0)

/-- The events of Configure(d) (R214). -/
def configureEvents (n d : Nat) : List Event :=
  commandEvents n d Config.opDisplayTest 0 ++ commandEvents n d Config.opScanLimit 7 ++
    commandEvents n d Config.opDecodeMode 0 ++ clearEvents n d ++
    commandEvents n d Config.opIntensity 8 ++ commandEvents n d Config.opShutdown 0

/-- The events of the self-test of device d (R218). -/
def selfTestEvents (n ms d : Nat) : List Event :=
  commandEvents n d Config.opDisplayTest 1 ++ [.delay ms] ++
    commandEvents n d Config.opDisplayTest 0

/-- The events of INITIALIZE on a chain of `n` (R210 to R218). -/
def initEvents (n ms : Nat) : List Event :=
  [.dirOut .data, .dirOut .clk, .dirOut .load, .write .load true] ++
    (List.range n).flatMap (fun d => commandEvents n d Config.opShutdown 1) ++
    (List.range n).flatMap (configureEvents n) ++
    (List.range n).flatMap (selfTestEvents n ms)

/-- Bits in wire order grouped into bytes; bits left over are no byte. -/
def bytesOfBits : List Bool → List Byte
  | b7 :: b6 :: b5 :: b4 :: b3 :: b2 :: b1 :: b0 :: rest =>
    BitVec.ofNat 8 (bitsToNat [b0, b1, b2, b3, b4, b5, b6, b7]) :: bytesOfBits rest
  | _ => []

/-- What an observer of the three pins remembers (R282 (1)): the levels, the bits sampled since LOAD fell, and
the frames completed, each as its bytes. -/
structure Watcher where
  data : Bool
  clk : Bool
  load : Bool
  bits : List Bool
  frames : List (List Byte)
  deriving DecidableEq, Repr

/-- The observer sees an event: it samples DATA at a rising edge of CLK, and a frame lies between a falling and
a rising edge of LOAD (R60, R62, R282). -/
def Watcher.see (o : Watcher) : Event → Watcher
  | .write .data l => { o with data := l }
  | .write .clk l =>
    { o with clk := l, bits := if l && !o.clk then o.bits ++ [o.data] else o.bits }
  | .write .load l =>
    if o.load && !l then { o with load := l, bits := [] }
    else if l && !o.load then
      { o with load := l, bits := [], frames := o.frames ++ [bytesOfBits o.bits] }
    else { o with load := l }
  | .dirOut _ => o
  | .delay _ => o

/-- The frames an observer reads from a trace, when CLK is low and LOAD high before it (R282). -/
def framesOf (es : List Event) : List (List Byte) :=
  (es.foldl Watcher.see ⟨false, false, true, [], []⟩).frames

/-- The event is a write of a pin. -/
def isWrite : Event → Bool
  | .write _ _ => true
  | .dirOut _ => false
  | .delay _ => false

/-- The block accepts every operation: `seq` is Ready and no frame runs (R262, R275). -/
abbrev Accepts (s : State) : Prop := s.seq = .ready ∧ s.micro = .idle

/-- Device `d` of the chain has a chip wired at its place (R266 (2), R276). -/
abbrev Wired (s : State) (d : Nat) : Prop := d < s.devices ∧ d < s.params.wired

/-- What one frame for device `d` with a command leaves, from `s` to `t`: the events, the buffer, the levels
(R142, R143, R145), and that nothing else of the block changes but what `t.shadow` and `t.results` say of
themselves. The chips are outside the block; `t.rx` is stated elsewhere. -/
structure SentFrame (d : Nat) (opcode value : Byte) (s t : State) : Prop where
  trace : t.trace = s.trace ++ commandEvents s.devices d opcode value
  txbuf : ∀ i, i < 2 * s.devices →
    t.txbuf.read i = if i = 2 * d then value else if i = 2 * d + 1 then opcode else 0
  beyond : ∀ i, 2 * s.devices ≤ i → t.txbuf.read i = s.txbuf.read i
  level : t.level = ⟨if d = 0 then opcode.getLsbD 0 else false, false, true⟩
  params : t.params = s.params
  dir : t.dir = s.dir
  seq : t.seq = s.seq
  micro : t.micro = s.micro
  port : t.port = s.port
  draws : t.draws = s.draws

/-- Every byte of the shadow reads as before but the one of device `d` and row `r`. -/
abbrev ShadowElsewhere (d r : Nat) (s t : State) : Prop :=
  ∀ a, a ≠ shadowKey d r → t.shadow.read a = s.shadow.read a

/-- From `s` to `t` one register of the acting chip takes a byte, every other register of every chip reads as
before, and nothing else changes (R62). -/
structure WroteReg (reg : ChipReg) (data : Byte) (s t : State) : Prop where
  value : chipReg t s.rx.acting reg = data
  others : ∀ a, a ≠ chipKey s.rx.acting reg.opcode → t.rx.regs.read a = s.rx.regs.read a
  frame : t = s.setRx { s.rx with regs := t.rx.regs }

/-- From `s` to `t` nothing but the word chip `c` holds decided its registers: a wired chip whose word is a wire
command has what that word alone gives it, and at a place with no chip nothing changed (R62). -/
def OwnWordDecides (s t : State) (c : Nat) : Prop :=
  ∀ reg : ChipReg,
    (c < s.params.wired → ∀ i, decodeWire (chipWord s.rx.chain c) = .ok i →
      chipReg t c reg = chipReg (s.setRx (takeWord s.rx (c, chipWord s.rx.chain c))) c reg) ∧
    (s.params.wired ≤ c → chipReg t c reg = chipReg s c reg)

/-- The registers of chip `d` at Ready (R221). -/
structure ChipReady (s : State) (d : Nat) : Prop where
  displayTest : chipReg s d .displayTest = 0x00
  scanLimit : chipReg s d .scanLimit = 0x07
  decodeMode : chipReg s d .decodeMode = 0x00
  digit0 : chipReg s d .digit0 = 0x00
  digit1 : chipReg s d .digit1 = 0x00
  digit2 : chipReg s d .digit2 = 0x00
  digit3 : chipReg s d .digit3 = 0x00
  digit4 : chipReg s d .digit4 = 0x00
  digit5 : chipReg s d .digit5 = 0x00
  digit6 : chipReg s d .digit6 = 0x00
  digit7 : chipReg s d .digit7 = 0x00
  intensity : chipReg s d .intensity = 0x08
  shutdown : chipReg s d .shutdown = 0x00

/-- The register of row `r` (R33, R66). -/
def digitReg (r : Nat) : ChipReg :=
  match r with
  | 0 => .digit0
  | 1 => .digit1
  | 2 => .digit2
  | 3 => .digit3
  | 4 => .digit4
  | 5 => .digit5
  | 6 => .digit6
  | _ => .digit7

/-- The shadow says what the chips' digit registers hold (R23, R71). -/
def Mirrors (s : State) : Prop :=
  ∀ d r, Wired s d → r < 8 → shadowAt s d r = chipReg s d (digitReg r)

/-- A host operation that keeps the mirror: any but a raw write with a row opcode or a RESERVED one (R71, R148,
R273). -/
def KeepsMirror : HostOp → Prop
  | op => op.sel = 8 →
    trunc8 op.a = Config.opNoop ∨ trunc8 op.a = Config.opDecodeMode ∨
    trunc8 op.a = Config.opIntensity ∨ trunc8 op.a = Config.opScanLimit ∨
    trunc8 op.a = Config.opShutdown ∨ trunc8 op.a = Config.opDisplayTest

/-- One of the five configuration operations (R170 to R174). -/
def IsConfig (c : Instr) : Prop :=
  (∃ device mode, c = .hostSetDecodeMode device mode) ∨
    (∃ device level, c = .hostSetIntensity device level) ∨
    (∃ device limit, c = .hostSetScanLimit device limit) ∨
    (∃ device enabled, c = .hostShutdown device enabled) ∨
    ∃ device enabled, c = .hostDisplayTest device enabled

/-- A running frame stands at a position that exists, with LOAD low and CLK as the phase asks (R29, R142 (c)):
no edge of CLK can come while LOAD is high, and DATA is never written while CLK is high. -/
def PositionOk (s : State) : Prop :=
  match s.micro with
  | .idle => True
  | .loadLow => s.level.clk = false
  | .bit slot _ i .setData =>
    slot < s.devices ∧ i < 8 ∧ s.level.load = false ∧ s.level.clk = false
  | .bit slot _ i .clkHigh =>
    slot < s.devices ∧ i < 8 ∧ s.level.load = false ∧ s.level.clk = false
  | .bit slot _ i .clkLow =>
    slot < s.devices ∧ i < 8 ∧ s.level.load = false ∧ s.level.clk = true
  | .loadHigh => s.level.load = false ∧ s.level.clk = false

/-- The invariant of the machine: the byte arrays are canonical and within their spaces (R50 to R52), the
receiver has exactly its 16 bits a chip (R60) and only chips that are there owe an action (R62), a running
frame stands where R29 says, and the sequencer is at its start or at Ready, where the pins idle as R26 and
R36 say. -/
structure Inv (s : State) : Prop where
  shadowWf : s.shadow.wf
  shadowBelow : s.shadow.below (8 * s.devices)
  txbufWf : s.txbuf.wf
  txbufBelow : s.txbuf.below (2 * s.devices)
  regsWf : s.rx.regs.wf
  regsBelow : s.rx.regs.below (256 * s.params.wired)
  chain : s.rx.chain.length = 16 * s.params.wired
  latched : ∀ dw ∈ s.rx.latched, dw.1 < s.params.wired
  position : PositionOk s
  seq : s.seq = .powerOn ∨ s.seq = .ready
  idleClk : s.seq = .ready → s.micro = .idle → s.level.clk = false
  idleLoad : s.seq = .ready → s.micro = .idle → s.level.load = true
  outputs : s.seq = .ready → s.dir = ⟨.out, .out, .out⟩

/-- Operations run one after the other, stopping at the first stop (R67 (a), R281). -/
def execAll : List Instr → State → StepOutcome
  | [], s => .next s
  | i :: is, s =>
    match exec i s with
    | .next t => execAll is t
    | .fault r => .fault r
    | .refused r => .refused r

end Sys2Proof.Safety
end

