-- ==== Sys2Proof/Certificates/Slice0/Obligations.lean ====
section
/-!
DEFINITION. What is claimed about the machine, one statement each. Byte values of configuration opcodes stand
as the named constants of Config (30_encoding.md R84); the numerals behind them are PRESUMED (log 10).
-/

open Sys2Proof Sys2Proof.Machine Sys2Proof.Safety

/-! ## Encoding -/

/-- 95_test_vectors.md W1 to W16 (R81, R82, R89), in their order: what a slot's word is. The numerals 09 to 0F, and
with them which opcodes are RESERVED, rest on log 10. -/
def Obligations.WireWordsOfTheVectorsDecode : Prop :=
  decodeWire 0x0000 = .ok (.wireNoop 0x00) ∧ decodeWire 0x8001 = .ok (.wireDigit0 0x80) ∧
  decodeWire 0xFF08 = .ok (.wireDigit7 0xFF) ∧ decodeWire 0x0005 = .ok (.wireDigit4 0x00) ∧
  decodeWire 0x0009 = .ok (.wireDecodeMode 0x00) ∧ decodeWire 0xFF09 = .ok (.wireDecodeMode 0xFF) ∧
  decodeWire 0x080A = .ok (.wireIntensity 0x08) ∧ decodeWire 0x0F0A = .ok (.wireIntensity 0x0F) ∧
  decodeWire 0x070B = .ok (.wireScanLimit 0x07) ∧ decodeWire 0x010C = .ok (.wireShutdown 0x01) ∧
  decodeWire 0x000C = .ok (.wireShutdown 0x00) ∧ decodeWire 0x010F = .ok (.wireDisplayTest 0x01) ∧
  decodeWire 0x000F = .ok (.wireDisplayTest 0x00) ∧
  decodeWire 0x550D = .error (.reservedOpcode 0x0D) ∧
  decodeWire 0x0010 = .error (.reservedOpcode 0x10) ∧ decodeWire 0x7F00 = .ok (.wireNoop 0x7F)

/-- Every instruction, at every value of every operand, is decoded from its encoding (R81, R82, R85, R86). -/
def Obligations.DecodeAfterEncode : Prop := ∀ i : Instr, decode (encode i) = .ok i

/-- A wire word has one meaning: what is decoded from it encodes to it (R81, R82). -/
def Obligations.EncodeAfterDecodeWire : Prop :=
  ∀ (w : Word) (i : Instr), decodeWire w = .ok i → encode i = .wire w

/-- A FRAME of wire commands is decoded to those commands, slot by slot (R80, R90). -/
def Obligations.FrameOfCommandsDecodes : Prop :=
  ∀ is : List Instr, (∀ i ∈ is, ∃ w, encode i = .wire w) →
    decodeFrame (is.flatMap slotBytesOf) = .ok is

/-- The decoder of wire words rejects exactly the opcode bytes 0x0D, 0x0E and 0x10 to 0xFF, by name (R82, R89
(a)). The numerals rest on log 10. -/
def Obligations.WireDecoderRejectsReservedOpcodes : Prop :=
  ∀ w : Word,
    (decodeWire w = .error (.reservedOpcode (wireOpcode w)) ↔
      wireOpcode w = 0x0D ∨ wireOpcode w = 0x0E ∨ 0x10 ≤ (wireOpcode w).toNat) ∧
    (wireOpcode w ≠ 0x0D ∧ wireOpcode w ≠ 0x0E ∧ (wireOpcode w).toNat < 0x10 →
      ∃ i, decodeWire w = .ok i)

/-- The selectors of R85 and the binding of the record's fields of R86; the rest is reserved (R89 (b)). -/
def Obligations.HostSelectorsNameOperations : Prop :=
  ∀ (device a b : Int) (s : Bool),
    decodeHost ⟨0, device, a, b, s⟩ = .ok .hostInitialize ∧
    decodeHost ⟨1, device, a, b, s⟩ = .ok (.hostClearDisplay device) ∧
    decodeHost ⟨2, device, a, b, s⟩ = .ok (.hostDisplayTest device s) ∧
    decodeHost ⟨3, device, a, b, s⟩ = .ok (.hostSetDecodeMode device a) ∧
    decodeHost ⟨4, device, a, b, s⟩ = .ok (.hostSetIntensity device a) ∧
    decodeHost ⟨5, device, a, b, s⟩ = .ok (.hostSetLed device a b s) ∧
    decodeHost ⟨6, device, a, b, s⟩ = .ok (.hostSetScanLimit device a) ∧
    decodeHost ⟨7, device, a, b, s⟩ = .ok (.hostShutdown device s) ∧
    decodeHost ⟨8, device, a, b, s⟩ = .ok (.hostWriteCommand device a b) ∧
    decodeHost ⟨9, device, a, b, s⟩ = .ok .hostSetRow ∧
    decodeHost ⟨10, device, a, b, s⟩ = .ok .hostSetCol ∧
    ∀ sel : BitVec 4, 11 ≤ sel.toNat →
      decodeHost ⟨sel, device, a, b, s⟩ = .error (.reservedSelector sel)

/-! ## Serializer, transmitter, observer -/

/-- R131: 24 events in the pattern DATA, CLK high, CLK low; the levels on exit; DATA written only while CLK is
low. Beside it that nothing else of the block changes (R130). -/
def Obligations.SerializeByteEventsAndEndState : Prop :=
  ∀ (v : Byte) (s : State), ∃ es : List Event,
    (serializeByte v s).trace = s.trace ++ es ∧ es.length = 24 ∧
    (∀ i, i < 8 → es[3 * i]? = some (.write .data (v.getLsbD (7 - i))) ∧
      es[3 * i + 1]? = some (.write .clk true) ∧ es[3 * i + 2]? = some (.write .clk false)) ∧
    (∀ before l after, es = before ++ Event.write .data l :: after →
      before = [] ∨ before.getLast? = some (.write .clk false)) ∧
    (serializeByte v s).level = ⟨v.getLsbD 0, false, s.level.load⟩ ∧
    ∃ chain, serializeByte v s =
      { s with
        level := (serializeByte v s).level
        trace := (serializeByte v s).trace
        rx := { s.rx with chain := chain } }

/-- R57: the bytes of a frame in wire order, and their bits. -/
def Obligations.FrameFollowsTheWireFormula : Prop :=
  ∀ s : State,
    (transmitChain s).trace = s.trace ++ frameEvents (wireBytes s.txbuf s.devices) ∧
    (wireBytes s.txbuf s.devices).length = 2 * s.devices ∧
    ∀ j, j < s.devices →
      (wireBytes s.txbuf s.devices)[2 * j]? = some (txbufAt s (2 * (s.devices - 1 - j))) ∧
      (wireBytes s.txbuf s.devices)[2 * j + 1]? = some (txbufAt s (2 * (s.devices - 1 - j) + 1)) ∧
      ∀ k m, k = 2 * j ∨ k = 2 * j + 1 → m < 8 →
        ((wireBytes s.txbuf s.devices).flatMap bitsMsbFirst)[8 * k + m]? =
          ((wireBytes s.txbuf s.devices)[k]?).map (fun w => w.getLsbD (7 - m))

/-- R142 (a), (b), (c), (e), (f): the counts of one `transmit_chain`, LOAD low from the first event to the last
but one, and the levels on exit. -/
def Obligations.TransmitChainCounts : Prop :=
  ∀ s : State, ∃ inner : List Event,
    (transmitChain s).trace = s.trace ++ (.write .load false :: (inner ++ [.write .load true])) ∧
    inner.length = 48 * s.devices ∧
    inner.count (.write .data false) + inner.count (.write .data true) = 16 * s.devices ∧
    inner.count (.write .clk true) = 16 * s.devices ∧
    inner.count (.write .clk false) = 16 * s.devices ∧
    (transmitChain s).level = ⟨(txbufAt s 1).getLsbD 0, false, true⟩ ∧
    (transmitChain s).txbuf = s.txbuf ∧ (transmitChain s).shadow = s.shadow

/-- R282 (1): an observer of the pins reads from the events of frames the bytes of those frames. -/
def Obligations.ObserverReadsFramesBack : Prop :=
  ∀ frames : List (List Byte), framesOf (frames.flatMap frameEvents) = frames

/-- R29: one pin event at a time, from the position before LOAD low to the end of the frame, makes exactly the
frame that `transmit_chain` makes at once. -/
def Obligations.MicroStepsRefineTransmitChain : Prop :=
  ∀ s : State, s.micro = .idle →
    microRun (48 * s.devices + 2) (startFrame s) = transmitChain s

/-- R124, R145: the frame of one command decodes to that command in the target's slot and a no-op in every
other. -/
def Obligations.FrameCarriesOneCommand : Prop :=
  ∀ (n d : Nat) (opcode value : Byte) (i : Instr), d < n → decodeWire (wireWord value opcode) = .ok i →
    decodeFrame (frameBytes n d opcode value) =
      .ok (List.replicate (n - 1 - d) (.wireNoop 0) ++ [i] ++ List.replicate d (.wireNoop 0))

/-! ## The chips -/

/-- R61: after the bits of one frame position p of the chain holds bit 16N - 1 - p of the frame, and chip d
holds its own slot; nothing of an earlier frame is left in them. It is a claim about the reference receiver (log
18). -/
def Obligations.ChipHoldsItsSlotAfterAFrame : Prop :=
  ∀ s : State, s.level.clk = false → s.rx.chain.length = 16 * s.params.wired →
    (∀ p, p < 16 * s.devices → p < 16 * s.params.wired →
      (sendSlots s.devices (pin .load false s)).rx.chain[p]? =
        ((wireBytes s.txbuf s.devices).flatMap bitsMsbFirst)[16 * s.devices - 1 - p]?) ∧
    ∀ d, Wired s d →
      chipWord (sendSlots s.devices (pin .load false s)).rx.chain d =
        wireWord (txbufAt s (2 * d)) (txbufAt s (2 * d + 1))

/-- R264: with CLK high before a frame the first edge is missing; every bit is in its place but bit 7 of the
data byte of device N - 1, which holds what stood at position 0. -/
def Obligations.MissingFirstEdgeSpoilsOneBit : Prop :=
  ∀ (s : State) (d k : Nat), s.level.clk = true → s.rx.chain.length = 16 * s.params.wired →
    Wired s d → k < 16 →
    (chipWord (sendSlots s.devices (pin .load false s)).rx.chain d).getLsbD k =
      if d = s.devices - 1 ∧ k = 15 then s.rx.chain[0]?.getD false
      else (wireWord (txbufAt s (2 * d)) (txbufAt s (2 * d + 1))).getLsbD k

/-- R62: the word a chip takes at a latch edge runs as the instruction it decodes to. The chip that acts stands in
`rx.acting`, a field of the model's own (log 18). -/
def Obligations.LatchedWordRunsItsInstruction : Prop :=
  ∀ (s : State) (d : Nat) (w : Word) (i : Instr), decodeWire w = .ok i →
    exec i (s.setRx { s.rx with acting := d }) = .next (s.setRx (takeWord s.rx (d, w)))

/-- R62: at no write of a pin but a rising edge of LOAD does a register of a chip change. There every wired chip does
what the word it holds says: one that names a register writes its data byte there and nothing else, a NOOP does
nothing whatever its data, and where chip `d` holds a RESERVED opcode every other chip still does what its own word
says (what chip `d` itself then holds is a free value, log 9). It is a claim about the reference receiver (log
18). -/
def Obligations.ChipsActAtTheLatchEdgeAlone : Prop :=
  ∀ (p : Pin) (l : Bool) (s : State),
    ((p ≠ .load ∨ l = false ∨ s.level.load = true) → (pin p l s).rx.regs = s.rx.regs) ∧
    (p = .load → l = true → s.level.load = false → ∀ d, d < s.params.wired →
      (∀ reg data, chipWord s.rx.chain d = wireWord data reg.opcode →
        ∀ other, chipReg (pin p l s) d other = if other = reg then data else chipReg s d other) ∧
      (∀ data, chipWord s.rx.chain d = wireWord data Config.opNoop →
        ∀ other, chipReg (pin p l s) d other = chipReg s d other) ∧
      ∀ e, decodeWire (chipWord s.rx.chain d) = .error e →
        ∀ c, c ≠ d → OwnWordDecides s (pin p l s) c)

/-- R110: NOOP changes nothing, whatever its data. -/
def Obligations.NoopCompletes : Prop := ∀ (data : Byte) (s : State), exec (.wireNoop data) s = .next s

/-- R111 to R118: each digit command writes its data byte to its row register of the acting chip (`rx.acting`, a
field of the model's own, log 18) and changes nothing else. -/
def Obligations.DigitCommandsWriteTheirRow : Prop :=
  ∀ (data : Byte) (s : State),
    (∃ t, exec (.wireDigit0 data) s = .next t ∧ WroteReg .digit0 data s t) ∧
    (∃ t, exec (.wireDigit1 data) s = .next t ∧ WroteReg .digit1 data s t) ∧
    (∃ t, exec (.wireDigit2 data) s = .next t ∧ WroteReg .digit2 data s t) ∧
    (∃ t, exec (.wireDigit3 data) s = .next t ∧ WroteReg .digit3 data s t) ∧
    (∃ t, exec (.wireDigit4 data) s = .next t ∧ WroteReg .digit4 data s t) ∧
    (∃ t, exec (.wireDigit5 data) s = .next t ∧ WroteReg .digit5 data s t) ∧
    (∃ t, exec (.wireDigit6 data) s = .next t ∧ WroteReg .digit6 data s t) ∧
    (∃ t, exec (.wireDigit7 data) s = .next t ∧ WroteReg .digit7 data s t)

/-- R119 to R123: each configuration command writes its data byte to its register of the acting chip (`rx.acting`, a
field of the model's own, log 18) and changes nothing else. -/
def Obligations.ConfigCommandsWriteTheirRegister : Prop :=
  ∀ (data : Byte) (s : State),
    (∃ t, exec (.wireDecodeMode data) s = .next t ∧ WroteReg .decodeMode data s t) ∧
    (∃ t, exec (.wireIntensity data) s = .next t ∧ WroteReg .intensity data s t) ∧
    (∃ t, exec (.wireScanLimit data) s = .next t ∧ WroteReg .scanLimit data s t) ∧
    (∃ t, exec (.wireShutdown data) s = .next t ∧ WroteReg .shutdown data s t) ∧
    (∃ t, exec (.wireDisplayTest data) s = .next t ∧ WroteReg .displayTest data s t)

/-! ## Steps -/

/-- The model's choice (DESIGN CHOICE, log 18): while a word waits, a step of its own runs the instruction it decodes
to, the word gone from the waiting ones (`rx.latched`) and its chip the one that acts (`rx.acting`). No rule gives
such a step: by R62 the chips act at the edge of LOAD at once, and both fields are the model's own. What R62 says the
word then does is stated by LatchedWordRunsItsInstruction and ChipsActAtTheLatchEdgeAlone. -/
def Obligations.StepRunsTheLatchedWord : Prop :=
  ∀ (s : State) (d : Nat) (w : Word) (rest : List (Nat × Word)) (i : Instr),
    s.rx.latched = (d, w) :: rest → decodeWire w = .ok i →
    step s = exec i (s.setRx { s.rx with latched := rest, acting := d })

/-- The block takes the operations one at a time, in the order they are called, each complete before the next starts
(R67 (a), R70): the step is the decoded operation, the record gone from the port. That one step runs the whole operation
is the model's choice among the granularities R29 allows (log 13), and so is the port as a list in State (log 14);
the premise that no word waits speaks of the model's own field (log 18). -/
def Obligations.StepRunsThePresentedOperation : Prop :=
  ∀ (s : State) (op : HostOp) (rest : List HostOp) (i : Instr),
    s.rx.latched = [] → s.micro = .idle → s.port = op :: rest → decodeHost op = .ok i →
    step s = exec i (s.setPort rest)

/-- R89 (a): a RESERVED opcode never stops the machine; it can change registers of the chip that took it and of
no other, and nothing of the block. Both where a chip takes it: as a waiting word, and at the rising edge of LOAD
that ends a frame, where no word is left waiting and the block changes only as by any write of that pin. The waiting
word and the step that runs it are the model's choice (log 18); the edge is R62's. What the registers of that chip
hold is a free value (log 9). -/
def Obligations.ReservedOpcodeStaysInItsChip : Prop :=
  ∀ (s : State) (d : Nat) (e : DecodeReject),
    (∀ (w : Word) (rest : List (Nat × Word)), s.rx.latched = (d, w) :: rest → decodeWire w = .error e →
      ∃ t, step s = .next t ∧ t = s.setRx t.rx ∧ t.rx.chain = s.rx.chain ∧ t.rx.latched = rest ∧
        ∀ c reg, c ≠ d → chipReg t c reg = chipReg s c reg) ∧
    (s.level.load = false → d < s.params.wired → decodeWire (chipWord s.rx.chain d) = .error e →
      pin .load true s =
        { s with
          level := ⟨s.level.data, s.level.clk, true⟩
          trace := s.trace ++ [.write .load true]
          rx := (pin .load true s).rx } ∧
      (pin .load true s).rx.chain = s.rx.chain ∧ (pin .load true s).rx.latched = [] ∧
      ∀ c, c ≠ d → OwnWordDecides s (pin .load true s) c)

/-- Both clauses are the model's choice (DESIGN CHOICE), with no word waiting. A running frame advances by one pin
event a step: R29 allows this granularity and leaves the choice open (log 13). With no frame running and an empty port
a step answers the same state: no rule gives such a step, R281 only calls Ready the idle state and ends a run when the
last operation has returned (log 14). -/
def Obligations.StepWithoutAnInstruction : Prop :=
  ∀ s : State, s.rx.latched = [] →
    (s.micro ≠ .idle → step s = .next (microStep s)) ∧
    (s.micro = .idle → s.port = [] → step s = .next s)

/-! ## The operations -/

/-- R147, R145, R148: WRITE_COMMAND on a device of the chain sends exactly one frame with the reduced opcode and
value, and does not touch the shadow. An `opcode` or `value` outside 0 to 255 is reduced by D3 (log 19). -/
def Obligations.WriteCommandSendsItsFrame : Prop :=
  ∀ (s : State) (device opcode value : Int), Accepts s → 0 ≤ device → device < s.devices →
    ∃ t, exec (.hostWriteCommand device opcode value) s = .next t ∧
      SentFrame device.toNat (BitVec.ofInt 8 opcode) (BitVec.ofInt 8 value) s t ∧
      t.shadow = s.shadow ∧ t.results = s.results ++ [.ok]

/-- R170: SET_DECODE_MODE sends exactly one frame, with the mode reduced to a byte (D3, log 19). -/
def Obligations.SetDecodeModeSendsItsFrame : Prop :=
  ∀ (s : State) (device mode : Int), Accepts s → 0 ≤ device → device < s.devices →
    ∃ t, exec (.hostSetDecodeMode device mode) s = .next t ∧
      SentFrame device.toNat Config.opDecodeMode (BitVec.ofInt 8 mode) s t ∧
      t.shadow = s.shadow ∧ t.results = s.results ++ [.ok]

/-- R171: SET_INTENSITY with a level in [0, 15] sends exactly one frame with that level. -/
def Obligations.SetIntensitySendsItsFrame : Prop :=
  ∀ (s : State) (device level : Int), Accepts s → 0 ≤ device → device < s.devices →
    0 ≤ level → level ≤ 15 →
    ∃ t, exec (.hostSetIntensity device level) s = .next t ∧
      (∃ data : Byte, (data.toNat : Int) = level ∧
        SentFrame device.toNat Config.opIntensity data s t) ∧
      t.shadow = s.shadow ∧ t.results = s.results ++ [.ok]

/-- R172: SET_SCAN_LIMIT with a limit in [0, 7] sends exactly one frame with that limit. -/
def Obligations.SetScanLimitSendsItsFrame : Prop :=
  ∀ (s : State) (device limit : Int), Accepts s → 0 ≤ device → device < s.devices →
    0 ≤ limit → limit ≤ 7 →
    ∃ t, exec (.hostSetScanLimit device limit) s = .next t ∧
      (∃ data : Byte, (data.toNat : Int) = limit ∧
        SentFrame device.toNat Config.opScanLimit data s t) ∧
      t.shadow = s.shadow ∧ t.results = s.results ++ [.ok]

/-- R173: SHUTDOWN sends exactly one frame, data 1 for true and 0 for false (the literal polarity, D11, log
12). -/
def Obligations.ShutdownSendsItsFrame : Prop :=
  ∀ (s : State) (device : Int) (enabled : Bool), Accepts s → 0 ≤ device → device < s.devices →
    ∃ t, exec (.hostShutdown device enabled) s = .next t ∧
      SentFrame device.toNat Config.opShutdown (if enabled then 1 else 0) s t ∧
      t.shadow = s.shadow ∧ t.results = s.results ++ [.ok]

/-- R174: DISPLAY_TEST sends exactly one frame, data 1 for true and 0 for false. -/
def Obligations.DisplayTestSendsItsFrame : Prop :=
  ∀ (s : State) (device : Int) (enabled : Bool), Accepts s → 0 ≤ device → device < s.devices →
    ∃ t, exec (.hostDisplayTest device enabled) s = .next t ∧
      SentFrame device.toNat Config.opDisplayTest (if enabled then 1 else 0) s t ∧
      t.shadow = s.shadow ∧ t.results = s.results ++ [.ok]

/-- R190, R191: SET_LED on valid operands switches one bit of one shadow byte, leaves every other byte of the
shadow, and sends exactly one frame with the row's opcode and the updated byte. -/
def Obligations.SetLedSwitchesAndSends : Prop :=
  ∀ (s : State) (device row column : Int) (state : Bool), Accepts s → 0 ≤ device → device < s.devices →
    0 ≤ row → row ≤ 7 → 0 ≤ column → column ≤ 7 →
    ∃ (t : State) (new : Byte), exec (.hostSetLed device row column state) s = .next t ∧
      new = (if state then shadowAt s device.toNat row.toNat ||| (0x80#8 >>> column.toNat)
        else shadowAt s device.toNat row.toNat &&& ~~~ (0x80#8 >>> column.toNat)) ∧
      shadowAt t device.toNat row.toNat = new ∧ ShadowElsewhere device.toNat row.toNat s t ∧
      SentFrame device.toNat (BitVec.ofNat 8 (row.toNat + 1)) new s t ∧
      t.results = s.results ++ [.ok]

/-- R193: SET_LED writes one lane of the row byte, lane c being bit 7 - c, and no other lane. -/
def Obligations.SetLedWritesOneLane : Prop :=
  ∀ (s : State) (device row column : Int) (state : Bool), Accepts s → 0 ≤ device → device < s.devices →
    0 ≤ row → row ≤ 7 → 0 ≤ column → column ≤ 7 →
    ∃ t, exec (.hostSetLed device row column state) s = .next t ∧
      ∀ c : Nat, c < 8 →
        (shadowAt t device.toNat row.toNat).getLsbD (7 - c) =
          if c = column.toNat then state
          else (shadowAt s device.toNat row.toNat).getLsbD (7 - c)

/-- R192: on then off leaves the prior byte with the bit cleared, which is the prior byte when the bit was 0
before; each call sends the frame of R145 with the byte after that call. -/
def Obligations.SetLedOnThenOff : Prop :=
  ∀ (s : State) (device row column : Int), Accepts s → 0 ≤ device → device < s.devices →
    0 ≤ row → row ≤ 7 → 0 ≤ column → column ≤ 7 →
    ∃ t u, exec (.hostSetLed device row column true) s = .next t ∧
      exec (.hostSetLed device row column false) t = .next u ∧
      shadowAt u device.toNat row.toNat =
        shadowAt s device.toNat row.toNat &&& ~~~ (0x80#8 >>> column.toNat) ∧
      (shadowAt s device.toNat row.toNat &&& (0x80#8 >>> column.toNat) = 0 →
        shadowAt u device.toNat row.toNat = shadowAt s device.toNat row.toNat) ∧
      t.trace = s.trace ++ commandEvents s.devices device.toNat (BitVec.ofNat 8 (row.toNat + 1))
        (shadowAt t device.toNat row.toNat) ∧
      u.trace = t.trace ++ commandEvents s.devices device.toNat (BitVec.ofNat 8 (row.toNat + 1))
        (shadowAt u device.toNat row.toNat)

/-- R160, R161: CLEAR_DISPLAY on a device of the chain zeroes its eight shadow bytes, leaves every other byte of
the shadow, sends its eight frames in order and leaves the buffer of the last one. -/
def Obligations.ClearDisplayClearsItsDevice : Prop :=
  ∀ (s : State) (device : Int), Accepts s → 0 ≤ device → device < s.devices →
    ∃ t, exec (.hostClearDisplay device) s = .next t ∧
      (∀ r, r < 8 → shadowAt t device.toNat r = 0) ∧
      (∀ a, (∀ r, r < 8 → a ≠ shadowKey device.toNat r) → t.shadow.read a = s.shadow.read a) ∧
      t.trace = s.trace ++ clearEvents s.devices device.toNat ∧
      (∀ i, i < 2 * s.devices →
        txbufAt t i = if i = 2 * device.toNat + 1 then 8 else 0) ∧
      (∀ i, 2 * s.devices ≤ i → txbufAt t i = txbufAt s i) ∧
      t.level = ⟨false, false, true⟩ ∧
      t.params = s.params ∧ t.dir = s.dir ∧ t.seq = s.seq ∧ t.micro = s.micro ∧ t.port = s.port ∧
      t.draws = s.draws ∧ t.results = s.results ++ [.ok]

/-- R161: the size of CLEAR_DISPLAY, its eight frames as an observer reads them, and where the one byte that is
not zero stands in each. -/
def Obligations.ClearDisplaySize : Prop :=
  ∀ (s : State) (device : Int), Accepts s → 0 ≤ device → device < s.devices →
    ∃ (t : State) (es : List Event), exec (.hostClearDisplay device) s = .next t ∧
      t.trace = s.trace ++ es ∧
      es.length = 384 * s.devices + 16 ∧ (∀ e ∈ es, isWrite e = true) ∧
      (framesOf es).length = 8 ∧
      ∀ r k, r < 8 → k < 2 * s.devices →
        ((framesOf es)[r]?).bind (fun frame => frame[k]?) =
          some (if k = 2 * (s.devices - 1 - device.toNat) + 1 then BitVec.ofNat 8 (r + 1) else 0)

/-- R163: after CLEAR_DISPLAY(d) and SET_LED(d, r, c, on) for every row, every row byte of the device is
`0x80 >> c`. -/
def Obligations.ColumnPatternByRows : Prop :=
  ∀ (s : State) (device column : Int), Accepts s → 0 ≤ device → device < s.devices →
    0 ≤ column → column ≤ 7 →
    ∃ t, execAll
        [.hostClearDisplay device, .hostSetLed device 0 column true, .hostSetLed device 1 column true,
         .hostSetLed device 2 column true, .hostSetLed device 3 column true,
         .hostSetLed device 4 column true, .hostSetLed device 5 column true,
         .hostSetLed device 6 column true, .hostSetLed device 7 column true] s = .next t ∧
      ∀ r, r < 8 → shadowAt t device.toNat r = 0x80#8 >>> column.toNat

/-- R194, R195, R236: SET_ROW, SET_COL and the reserved selectors end with UNIMPLEMENTED and change nothing
else, whatever the operands, once an operation is accepted at all (log 15). -/
def Obligations.StubsAnswerUnimplemented : Prop :=
  ∀ s : State, Accepts s →
    exec .hostSetRow s = .next { s with results := s.results ++ [.unimplemented] } ∧
    exec .hostSetCol s = .next { s with results := s.results ++ [.unimplemented] } ∧
    ∀ op rest, s.rx.latched = [] → s.port = op :: rest → 9 ≤ op.sel.toNat →
      step s = .next { s with port := rest, results := s.results ++ [.unimplemented] }

/-- R92: the five configuration operations and the raw write are one command each, sent by `write_command`. -/
def Obligations.ConfigOperationsExpandToWriteCommand : Prop :=
  ∀ (s : State) (device : Int), 0 ≤ device → device < s.devices →
    (∀ mode, exec (.hostSetDecodeMode device mode) s =
      exec (.hostWriteCommand device Config.opDecodeMode.toNat mode) s) ∧
    (∀ level, 0 ≤ level → level ≤ 15 → exec (.hostSetIntensity device level) s =
      exec (.hostWriteCommand device Config.opIntensity.toNat level) s) ∧
    (∀ limit, 0 ≤ limit → limit ≤ 7 → exec (.hostSetScanLimit device limit) s =
      exec (.hostWriteCommand device Config.opScanLimit.toNat limit) s) ∧
    (∀ enabled, exec (.hostShutdown device enabled) s =
      exec (.hostWriteCommand device Config.opShutdown.toNat (if enabled then 1 else 0)) s) ∧
    (∀ enabled, exec (.hostDisplayTest device enabled) s =
      exec (.hostWriteCommand device Config.opDisplayTest.toNat (if enabled then 1 else 0)) s)

/-- R62, R145: a command sent while CLK idles low reaches one register of one chip: the addressed chip's, and no
other register of any wired device of the chain. A NOOP reaches no register of any of them. Whatever the opcode,
RESERVED ones (R82, R89; numerals: log 10) included, no register of any other wired device changes; what a RESERVED
one leaves in the addressed chip is a free value (log 9). An `opcode` or `value` outside 0 to 255 is reduced by D3
(log 19). -/
def Obligations.CommandReachesOneRegister : Prop :=
  ∀ (s : State) (device opcode value : Int), Accepts s → 0 ≤ device → device < s.devices →
    s.level.clk = false → s.rx.chain.length = 16 * s.params.wired →
    ∃ t, exec (.hostWriteCommand device opcode value) s = .next t ∧
      ∀ (e : Nat) (other : ChipReg), Wired s e →
        (∀ reg : ChipReg, BitVec.ofInt 8 opcode = reg.opcode →
          chipReg t e other =
            if (e : Int) = device ∧ other = reg then BitVec.ofInt 8 value else chipReg s e other) ∧
        (BitVec.ofInt 8 opcode = Config.opNoop → chipReg t e other = chipReg s e other) ∧
        ((e : Int) ≠ device → chipReg t e other = chipReg s e other)

/-- R62, R160, R190: while CLK idles low SET_LED reaches the row's register of the addressed chip, with the updated
byte, and no other register of any wired device of the chain; CLEAR_DISPLAY zeroes the eight row registers of
the addressed chip and reaches no other. -/
def Obligations.LedOperationsReachTheirRowRegisters : Prop :=
  ∀ (s : State) (device : Int), Accepts s → 0 ≤ device → device < s.devices →
    s.level.clk = false → s.rx.chain.length = 16 * s.params.wired →
    (∀ (row column : Int) (state : Bool), 0 ≤ row → row ≤ 7 → 0 ≤ column → column ≤ 7 →
      ∃ t, exec (.hostSetLed device row column state) s = .next t ∧
        ∀ (e : Nat) (reg : ChipReg), Wired s e →
          chipReg t e reg =
            if (e : Int) = device ∧ reg = digitReg row.toNat then shadowAt t device.toNat row.toNat
            else chipReg s e reg) ∧
    ∃ t, exec (.hostClearDisplay device) s = .next t ∧
      ∀ (e : Nat) (reg : ChipReg), Wired s e →
        chipReg t e reg =
          if (e : Int) = device ∧ ∃ r ∈ rowList, reg = digitReg r then 0 else chipReg s e reg

/-- R144: no byte of an earlier write survives; the frame and the buffer of a command do not depend on what the
buffer held. -/
def Obligations.BufferIsRebuiltForEveryWrite : Prop :=
  ∀ (s : State) (stale : Memory) (device : Int) (opcode value : Byte), 0 ≤ device → device < s.devices →
    (writeCommand device opcode value (s.setTxbuf stale)).1.trace =
      (writeCommand device opcode value s).1.trace ∧
    (writeCommand device opcode value (s.setTxbuf stale)).1.rx =
      (writeCommand device opcode value s).1.rx ∧
    ∀ i, i < 2 * s.devices →
      txbufAt (writeCommand device opcode value (s.setTxbuf stale)).1 i =
        txbufAt (writeCommand device opcode value s).1 i

/-! ## Dropped and refused operations -/

/-- R232: an operation whose device lies outside [0, N) ends with INVALID_INDEX and changes nothing, whatever its
other operands (R238, R239); INITIALIZE cannot end so. -/
def Obligations.InvalidDeviceIsDropped : Prop :=
  ∀ (s : State) (device : Int), Accepts s → (device < 0 ∨ (s.devices : Int) ≤ device) →
    (∀ (a b : Int) (e : Bool),
      exec (.hostClearDisplay device) s = .next { s with results := s.results ++ [.invalidIndex] } ∧
      exec (.hostDisplayTest device e) s = .next { s with results := s.results ++ [.invalidIndex] } ∧
      exec (.hostSetDecodeMode device a) s = .next { s with results := s.results ++ [.invalidIndex] } ∧
      exec (.hostSetIntensity device a) s = .next { s with results := s.results ++ [.invalidIndex] } ∧
      exec (.hostSetLed device a b e) s = .next { s with results := s.results ++ [.invalidIndex] } ∧
      exec (.hostSetScanLimit device a) s = .next { s with results := s.results ++ [.invalidIndex] } ∧
      exec (.hostShutdown device e) s = .next { s with results := s.results ++ [.invalidIndex] } ∧
      exec (.hostWriteCommand device a b) s = .next { s with results := s.results ++ [.invalidIndex] }) ∧
    ∃ t, exec .hostInitialize s = .next t ∧ t.results = s.results ++ [.ok]

/-- R233, R238: SET_LED on a device of the chain with a bad row or column ends with INVALID_VALUE and changes
nothing. -/
def Obligations.InvalidRowOrColumnIsDropped : Prop :=
  ∀ (s : State) (device row column : Int) (state : Bool), Accepts s → 0 ≤ device → device < s.devices →
    (row < 0 ∨ 7 < row ∨ column < 0 ∨ 7 < column) →
    exec (.hostSetLed device row column state) s =
      .next { s with results := s.results ++ [.invalidValue] }

/-- R234: a bad level ends SET_INTENSITY with INVALID_VALUE; nothing else changes, so that later operations are
unaffected. -/
def Obligations.InvalidIntensityIsDropped : Prop :=
  ∀ (s : State) (device level : Int), Accepts s → 0 ≤ device → device < s.devices →
    (level < 0 ∨ 15 < level) →
    exec (.hostSetIntensity device level) s =
      .next { s with results := s.results ++ [.invalidValue] }

/-- R235: a bad limit ends SET_SCAN_LIMIT with INVALID_VALUE; nothing else changes. -/
def Obligations.InvalidScanLimitIsDropped : Prop :=
  ∀ (s : State) (device limit : Int), Accepts s → 0 ≤ device → device < s.devices →
    (limit < 0 ∨ 7 < limit) →
    exec (.hostSetScanLimit device limit) s =
      .next { s with results := s.results ++ [.invalidValue] }

/-- R262 (D17): before Ready every host operation but INITIALIZE is refused, with no step and no result. That SET_ROW,
SET_COL and the reserved selectors are refused too, R262 before the "always" of R236, is the model's reading (log 15,
DEDUCED). INITIALIZE is accepted at power-on and refused inside its own run (R210). -/
def Obligations.OnlyInitializeBeforeReady : Prop :=
  ∀ s : State, s.micro = .idle → s.seq ≠ .ready →
    (∀ op i, decodeHost op = .ok i → i ≠ .hostInitialize → exec i s = .refused .notReady) ∧
    (∀ op rest, s.rx.latched = [] → s.port = op :: rest → op.sel ≠ 0 →
      step s = .refused .notReady) ∧
    (s.seq = .powerOn → ∃ t, exec .hostInitialize s = .next t) ∧
    (s.seq ≠ .powerOn → exec .hostInitialize s = .refused .sequencerRunning)

/-- R275: an operation presented while a frame is running has no meaning. That the model refuses it by name is log 16
(DEDUCED). -/
def Obligations.NoOperationWhileAFrameRuns : Prop :=
  ∀ (s : State) (op : HostOp) (i : Instr), s.micro ≠ .idle → decodeHost op = .ok i →
    exec i s = .refused .frameRunning

/-- R231: every host operation accepted at Ready ends in a next state with exactly one result more, and the block
is at Ready again. -/
def Obligations.EveryOperationEndsWithOneResult : Prop :=
  ∀ (s : State) (op : HostOp) (i : Instr), Accepts s → decodeHost op = .ok i →
    ∃ t r, exec i s = .next t ∧ t.results = s.results ++ [r] ∧ Accepts t

/-! ## INITIALIZE -/

/-- R210 to R219, R222: INITIALIZE, from power-on or from Ready, ends at Ready with OK and appends events that
are a function of N and `T_SELFTEST_MS` alone; the orders of its loops are D12, D14, D15 (log 20), and the data bytes of
its SHUTDOWN frames, 1 in ShutdownAll and 0 in ExitShutdown, are the literal polarity of D11 (log 12). -/
def Obligations.InitializeTrace : Prop :=
  ∀ s : State, s.micro = .idle → (s.seq = .powerOn ∨ s.seq = .ready) →
    ∃ t, exec .hostInitialize s = .next t ∧ t.seq = .ready ∧
      t.trace = s.trace ++ initEvents s.devices s.params.selfTestMs ∧
      t.results = s.results ++ [.ok]

/-- R220: the size of INITIALIZE: its frames, its events and how many of each kind. -/
def Obligations.InitializeSize : Prop :=
  ∀ s : State, s.micro = .idle → (s.seq = .powerOn ∨ s.seq = .ready) →
    ∃ (t : State) (es : List Event), exec .hostInitialize s = .next t ∧ t.trace = s.trace ++ es ∧
      (framesOf es).length = 16 * s.devices ∧
      es.length = 768 * s.devices ^ 2 + 33 * s.devices + 4 ∧
      (∀ p, es.count (.dirOut p) = 1) ∧
      es.countP isWrite = 1 + 16 * s.devices * (48 * s.devices + 2) ∧
      es.count (.delay s.params.selfTestMs) = s.devices ∧
      (∀ m, m ≠ s.params.selfTestMs → Event.delay m ∉ es) ∧
      es.count (.write .load false) = 16 * s.devices ∧
      es.count (.write .load true) = 16 * s.devices + 1

/-- R36: the block at Ready. Nothing of the parameters, the port or the position changes; bytes outside the
shadow and the buffer read as before. -/
def Obligations.InitializeLeavesReadyState : Prop :=
  ∀ s : State, s.micro = .idle → (s.seq = .powerOn ∨ s.seq = .ready) →
    ∃ t, exec .hostInitialize s = .next t ∧
      (∀ d r, d < s.devices → r < 8 → shadowAt t d r = 0) ∧
      (∀ a, 8 * s.devices ≤ a → t.shadow.read a = s.shadow.read a) ∧
      (∀ i, i < 2 * s.devices →
        txbufAt t i = if i = 2 * (s.devices - 1) + 1 then Config.opDisplayTest else 0) ∧
      (∀ i, 2 * s.devices ≤ i → txbufAt t i = txbufAt s i) ∧
      t.dir = ⟨.out, .out, .out⟩ ∧
      t.level = ⟨if s.devices = 1 then Config.opDisplayTest.getLsbD 0 else false, false, true⟩ ∧
      t.seq = .ready ∧ t.params = s.params ∧ t.micro = s.micro ∧ t.port = s.port

/-- R221: the chips at Ready, and the shadow that mirrors them. It needs no premise on the level of CLK or LOAD
after PinSetup (R264, R265): what the first frame or a spurious latch may spoil is written again. That each register
is reached rests on the numerals of log 10, and the 0 in the shutdown register on the polarity of log 12. It is a
claim about the reference receiver (log 18). -/
def Obligations.InitializeConfiguresEveryChip : Prop :=
  ∀ s : State, s.micro = .idle → (s.seq = .powerOn ∨ s.seq = .ready) →
    s.rx.chain.length = 16 * s.params.wired →
    ∃ t, exec .hostInitialize s = .next t ∧ Mirrors t ∧ ∀ d, Wired s d → ChipReady t d

/-! ## Invariants and whole-machine rules -/

/-- The power-on state of every instance: what R36 and R20 give. -/
def Obligations.PowerOnState : Prop :=
  ∀ p : Params, (State.powerOn p).seq = .powerOn ∧ (State.powerOn p).dir = ⟨.unset, .unset, .unset⟩ ∧
    (State.powerOn p).trace = [] ∧ (State.powerOn p).results = [] ∧
    (State.powerOn p).micro = .idle ∧ (State.powerOn p).params = p ∧
    State.reset = State.powerOn State.reset.params

/-- The invariant holds at power-on, of every instance. -/
def Obligations.PowerOnMeetsInv : Prop := ∀ p : Params, Inv (State.powerOn p)

/-- Every step keeps the invariant. Its clause on the waiting words speaks of a field of the model's own (log 18), its
clauses on the canonical form of the model's way to hold a byte array, the others of what R26, R29, R36, R50 to R52
and R60 say. -/
def Obligations.StepKeepsInv : Prop := ∀ s t : State, Inv s → step s = .next t → Inv t

/-- R6, R37: no step changes the parameters of the instance. -/
def Obligations.StepKeepsParams : Prop := ∀ s t : State, step s = .next t → t.params = s.params

/-- R10, R67: a step only appends, to the trace and to the results. That both stand in State is the model's choice
(log 14). -/
def Obligations.StepOnlyAppends : Prop :=
  ∀ s t : State, step s = .next t →
    ∃ es rs, t.trace = s.trace ++ es ∧ t.results = s.results ++ rs

/-- R23, R71: between operations the shadow says what the chips' digit registers hold, and every operation but a
raw write with a row opcode or a RESERVED one (R148, R273; log 9) keeps it so. After the operation the block is at
Ready again with no word waiting, so that with StepKeepsInv the next operation finds the same premises. -/
def Obligations.ShadowMirrorsTheChips : Prop :=
  ∀ (s t : State) (op : HostOp) (rest : List HostOp), Inv s → s.seq = .ready → s.micro = .idle →
    s.rx.latched = [] → Mirrors s → s.port = op :: rest → KeepsMirror op → step s = .next t →
    Mirrors t ∧ t.rx.latched = [] ∧ Accepts t

/-- R249, R272: the block is open-loop; whatever the chips hold, an operation does the same to everything but the
chips. -/
def Obligations.ChipsNeverInfluenceTheBlock : Prop :=
  ∀ (s t : State) (chips : Receiver) (op : HostOp) (i : Instr), decodeHost op = .ok i →
    exec i s = .next t →
    ∃ u, exec i (s.setRx chips) = .next u ∧ u = t.setRx u.rx

/-- R176: the block keeps no record of configuration writes: after one configuration operation any second
operation sends and answers as it would have without it, and leaves the same shadow. -/
def Obligations.ConfigurationIsNotRemembered : Prop :=
  ∀ (s t u v : State) (c : Instr) (op : HostOp) (i : Instr), Accepts s → IsConfig c →
    exec c s = .next t → decodeHost op = .ok i → exec i s = .next u → exec i t = .next v →
    ∃ es rs, u.trace = s.trace ++ es ∧ v.trace = t.trace ++ es ∧
      u.results = s.results ++ rs ∧ v.results = t.results ++ rs ∧ v.shadow = u.shadow

/-- Two byte arrays in canonical form that read the same everywhere are the same data. -/
def Obligations.CanonicalArraysAreEqualData : Prop :=
  ∀ m m' : Memory, m.wf → m'.wf → (∀ a, m.read a = m'.read a) → m = m'
end

