-- ==== Sys2Proof/Laws/Decode.lean ====
section
/-!
SUPPORT. The decoders: the parts of a word, and what each decoder can answer.
-/

namespace Sys2Proof

theorem wireOpcode_wireWord (data opcode : Byte) : wireOpcode (wireWord data opcode) = opcode := by
  unfold wireOpcode wireWord
  ext i hi
  rw [BitVec.getElem_extractLsb', Nat.zero_add,
    show (data ++ opcode : BitVec 16).getLsbD i = (data ++ opcode : BitVec (8 + 8)).getLsbD i from rfl,
    BitVec.getLsbD_append, if_pos hi, BitVec.getLsbD_eq_getElem hi]

theorem wireData_wireWord (data opcode : Byte) : wireData (wireWord data opcode) = data := by
  unfold wireData wireWord
  ext i hi
  rw [BitVec.getElem_extractLsb',
    show (data ++ opcode : BitVec 16).getLsbD (8 + i) = (data ++ opcode : BitVec (8 + 8)).getLsbD (8 + i)
      from rfl,
    BitVec.getLsbD_append, if_neg (by omega), Nat.add_sub_cancel_left, BitVec.getLsbD_eq_getElem hi]

theorem wireWord_of_parts (w : Word) : wireWord (wireData w) (wireOpcode w) = w := by
  unfold wireData wireOpcode wireWord
  ext i hi
  rw [← BitVec.getLsbD_eq_getElem, BitVec.getLsbD_append]
  by_cases h : i < 8
  · simp [h, BitVec.getLsbD_eq_getElem hi]
  · have : i - 8 < 8 := by omega
    have h8 : 8 + (i - 8) = i := by omega
    simp [h, this, h8, BitVec.getLsbD_eq_getElem hi]

/-- Distinct registers have distinct opcodes, none of them the no-op (R84). -/
theorem opcode_inj {a b : ChipReg} : a.opcode = b.opcode ↔ a = b := by
  cases a <;> cases b <;> decide

theorem opcode_ne_noop (reg : ChipReg) : reg.opcode ≠ Config.opNoop := by
  cases reg <;> decide

/-- The instruction of a wire command for a register. -/
def wireInstr : ChipReg → Byte → Instr
  | .digit0 => .wireDigit0
  | .digit1 => .wireDigit1
  | .digit2 => .wireDigit2
  | .digit3 => .wireDigit3
  | .digit4 => .wireDigit4
  | .digit5 => .wireDigit5
  | .digit6 => .wireDigit6
  | .digit7 => .wireDigit7
  | .decodeMode => .wireDecodeMode
  | .intensity => .wireIntensity
  | .scanLimit => .wireScanLimit
  | .shutdown => .wireShutdown
  | .displayTest => .wireDisplayTest

theorem decodeWire_reg (reg : ChipReg) (data : Byte) :
    decodeWire (wireWord data reg.opcode) = .ok (wireInstr reg data) := by
  unfold decodeWire
  simp only [wireOpcode_wireWord, wireData_wireWord]
  cases reg <;> rfl

theorem decodeWire_noop (data : Byte) :
    decodeWire (wireWord data Config.opNoop) = .ok (.wireNoop data) := by
  unfold decodeWire
  simp only [wireOpcode_wireWord, wireData_wireWord]
  rfl

/-- An opcode byte is the no-op, a register's, or RESERVED (R82, R89). -/
theorem opcode_cases (o : Byte) :
    o = Config.opNoop ∨ (∃ reg : ChipReg, o = reg.opcode) ∨
      (o = 0x0D ∨ o = 0x0E ∨ 0x10 ≤ o.toNat) := by
  by_cases h : o.toNat < 16
  · have ho : o = BitVec.ofNat 8 o.toNat := by simp
    generalize o.toNat = k at ho h
    subst ho
    have : ∀ k : Fin 16, BitVec.ofNat 8 k.val = Config.opNoop ∨
        (∃ reg ∈ [ChipReg.digit0, .digit1, .digit2, .digit3, .digit4, .digit5, .digit6, .digit7,
          .decodeMode, .intensity, .scanLimit, .shutdown, .displayTest],
          BitVec.ofNat 8 k.val = reg.opcode) ∨
        (BitVec.ofNat 8 k.val = 0x0D#8 ∨ BitVec.ofNat 8 k.val = 0x0E#8 ∨
          0x10 ≤ (BitVec.ofNat 8 k.val).toNat) := by decide
    rcases this ⟨k, h⟩ with h | ⟨reg, _, h⟩ | h | h | h
    · exact .inl h
    · exact .inr (.inl ⟨reg, h⟩)
    · exact .inr (.inr (.inl h))
    · exact .inr (.inr (.inr (.inl h)))
    · rw [BitVec.toNat_ofNat] at h
      omega
  · exact .inr (.inr (.inr (.inr (by omega))))

/-- A RESERVED opcode decodes to nothing, by name (R89 (a)). -/
theorem decodeWire_reserved (data o : Byte) (h : o = 0x0D ∨ o = 0x0E ∨ 0x10 ≤ o.toNat) :
    decodeWire (wireWord data o) = .error (.reservedOpcode o) := by
  unfold decodeWire
  simp only [wireOpcode_wireWord, wireData_wireWord]
  have hne : ∀ c : Byte, c.toNat < 0x10 → c ≠ 0x0D → c ≠ 0x0E → o ≠ c := by
    rintro c hc h1 h2 rfl
    rcases h with h | h | h
    · exact h1 h
    · exact h2 h
    · omega
  repeat rw [if_neg (hne _ (by decide) (by decide) (by decide))]

/-- All that the decoder of wire words can answer. -/
theorem decodeWire_ok {w : Word} {i : Instr} (h : decodeWire w = .ok i) :
    (wireOpcode w = Config.opNoop ∧ i = .wireNoop (wireData w)) ∨
      ∃ reg : ChipReg, wireOpcode w = reg.opcode ∧ i = wireInstr reg (wireData w) := by
  rw [← wireWord_of_parts w] at h
  rcases opcode_cases (wireOpcode w) with ho | ⟨reg, ho⟩ | ho
  · rw [ho, decodeWire_noop] at h
    cases h
    exact .inl ⟨ho, rfl⟩
  · rw [ho, decodeWire_reg] at h
    cases h
    exact .inr ⟨reg, ho, rfl⟩
  · rw [decodeWire_reserved _ _ ho] at h
    cases h

/-- All that the decoder of host records can answer, but for the operands. -/
theorem decodeHost_host {op : HostOp} {i : Instr} (h : decodeHost op = .ok i) :
    ∃ rec, encode i = .host rec ∧ rec.sel = op.sel := by
  obtain ⟨sel, device, a, b, s⟩ := op
  have key : ∀ sel : BitVec 4, sel = 0 ∨ sel = 1 ∨ sel = 2 ∨ sel = 3 ∨ sel = 4 ∨ sel = 5 ∨ sel = 6 ∨
      sel = 7 ∨ sel = 8 ∨ sel = 9 ∨ sel = 10 ∨ sel = 11 ∨ sel = 12 ∨ sel = 13 ∨ sel = 14 ∨
      sel = 15 := by decide
  rcases key sel with rfl | rfl | rfl | rfl | rfl | rfl | rfl | rfl | rfl | rfl | rfl | rfl | rfl |
    rfl | rfl | rfl <;> first | (cases h; done) | (cases h; exact ⟨_, rfl, rfl⟩)

end Sys2Proof
end

