-- ==== Sys2Proof/Laws/Memory.lean ====
section
/-!
SUPPORT. The laws of the byte arrays: a read after a write, the canonical form, the bound on addresses.
-/

namespace Sys2Proof.Machine

@[simp] theorem Memory.read_nil (a : Nat) : Memory.read [] a = 0 := rfl

theorem Memory.read_remove (m : Memory) (a b : Nat) :
    (m.remove a).read b = if b = a then 0 else m.read b := by
  induction m with
  | nil => simp [Memory.remove]
  | cons c m ih =>
    obtain ⟨k, w⟩ := c
    simp only [Memory.remove, List.filter_cons] at ih ⊢
    by_cases hk : k = a
    · simp only [hk, bne_self_eq_false, Bool.false_eq_true, if_false, ih, Memory.read]
      split <;> rfl
    · simp only [bne_iff_ne, ne_eq, hk, not_false_eq_true, if_true, Memory.read, ih]
      by_cases hb : b = k
      · simp [hb, hk]
      · simp [hb]

theorem Memory.read_insert (m : Memory) (a b : Nat) (v : Byte) (h : m.read a = 0)
    (hn : ∀ c ∈ m, c.1 ≠ a) : (m.insert a v).read b = if b = a then v else m.read b := by
  induction m with
  | nil => simp [Memory.insert, Memory.read]
  | cons c m ih =>
    obtain ⟨k, w⟩ := c
    have hk : k ≠ a := hn (k, w) (by simp)
    have hn' : ∀ c ∈ m, c.1 ≠ a := fun c hc => hn c (by simp [hc])
    have ha : Memory.read m a = 0 := by simpa [Memory.read, Ne.symm hk] using h
    simp only [Memory.insert]
    split
    · simp [Memory.read]
    · simp only [Memory.read, ih ha hn']
      by_cases hb : b = k
      · simp [hb, hk]
      · simp [hb]

theorem Memory.remove_ne (m : Memory) (a : Nat) : ∀ c ∈ m.remove a, c.1 ≠ a := by
  intro c hc
  simpa [Memory.remove] using (List.mem_filter.mp hc).2

/-- A read after a write, at the same place and at every other. -/
@[simp] theorem Memory.read_write (m : Memory) (a b : Nat) (v : Byte) :
    (m.write a v).read b = if b = a then v else m.read b := by
  unfold Memory.write
  split
  · next h => rw [Memory.read_remove, h]
  · rw [Memory.read_insert _ _ _ _ (by simp [Memory.read_remove]) (Memory.remove_ne m a),
      Memory.read_remove]
    split <;> simp_all

theorem Memory.remove_wf {m : Memory} (h : m.wf) (a : Nat) : (m.remove a).wf :=
  ⟨h.1.filter _, fun c hc => h.2 c (List.mem_filter.mp hc).1⟩

theorem Memory.mem_insert {m : Memory} {a : Nat} {v : Byte} {c : Host.Cell} :
    c ∈ m.insert a v ↔ c = (a, v) ∨ c ∈ m := by
  induction m with
  | nil => simp [Memory.insert]
  | cons d m ih =>
    simp only [Memory.insert]
    split
    · simp
    · simp only [List.mem_cons, ih]; tauto

theorem Memory.insert_wf {m : Memory} (h : m.wf) (a : Nat) (v : Byte) (hv : v ≠ 0)
    (hn : ∀ c ∈ m, c.1 ≠ a) : (m.insert a v).wf := by
  refine ⟨?_, fun c hc => ?_⟩
  · induction m with
    | nil => simp [Memory.insert]
    | cons d m ih =>
      have hd := List.pairwise_cons.mp h.1
      have hda : d.1 ≠ a := hn d (by simp)
      simp only [Memory.insert]
      split
      · next hlt =>
        refine List.pairwise_cons.mpr ⟨fun c hc => ?_, h.1⟩
        rcases List.mem_cons.mp hc with rfl | hc
        · exact hlt
        · exact lt_trans hlt (hd.1 c hc)
      · next hlt =>
        refine List.pairwise_cons.mpr ⟨fun c hc => ?_, ih ⟨hd.2, fun c hc => h.2 c (by simp [hc])⟩
          (fun c hc => hn c (by simp [hc]))⟩
        rcases Memory.mem_insert.mp hc with rfl | hc
        · simp only at hlt ⊢; omega
        · exact hd.1 c hc
  · rcases Memory.mem_insert.mp hc with rfl | hc
    · exact hv
    · exact h.2 c hc

/-- A write keeps the canonical form. -/
theorem Memory.write_wf {m : Memory} (h : m.wf) (a : Nat) (v : Byte) : (m.write a v).wf := by
  unfold Memory.write
  split
  · exact Memory.remove_wf h a
  · next hv => exact Memory.insert_wf (Memory.remove_wf h a) a v hv (Memory.remove_ne m a)

/-- A write below a bound keeps the bound. -/
theorem Memory.write_below {m : Memory} {k : Nat} (h : m.below k) {a : Nat} (ha : a < k) (v : Byte) :
    (m.write a v).below k := by
  have hr : (m.remove a).below k := fun c hc => h c (List.mem_filter.mp hc).1
  unfold Memory.write
  split
  · exact hr
  · intro c hc
    rcases Memory.mem_insert.mp hc with rfl | hc
    · exact ha
    · exact hr c hc

/-- Nothing is listed at or above the bound. -/
theorem Memory.read_of_below {m : Memory} {k a : Nat} (h : m.below k) (ha : k ≤ a) : m.read a = 0 := by
  induction m with
  | nil => rfl
  | cons c m ih =>
    have hc := h c (by simp)
    simp only [Memory.read]
    rw [if_neg (by omega)]
    exact ih (fun c hc => h c (by simp [hc]))

theorem Memory.nil_wf : Memory.wf [] := ⟨List.Pairwise.nil, by simp⟩

end Sys2Proof.Machine
end

