-- ==== Sys2Proof/Laws/State.lean ====
section
/-!
SUPPORT. The small lemmas of State: what each update does to each field.
-/

namespace Sys2Proof.Machine

variable (s : State)

@[simp] theorem setShadow_params (x : Memory) : (s.setShadow x).params = s.params := rfl
@[simp] theorem setShadow_shadow (x : Memory) : (s.setShadow x).shadow = x := rfl
@[simp] theorem setShadow_txbuf (x : Memory) : (s.setShadow x).txbuf = s.txbuf := rfl
@[simp] theorem setShadow_level (x : Memory) : (s.setShadow x).level = s.level := rfl
@[simp] theorem setShadow_dir (x : Memory) : (s.setShadow x).dir = s.dir := rfl
@[simp] theorem setShadow_seq (x : Memory) : (s.setShadow x).seq = s.seq := rfl
@[simp] theorem setShadow_micro (x : Memory) : (s.setShadow x).micro = s.micro := rfl
@[simp] theorem setShadow_rx (x : Memory) : (s.setShadow x).rx = s.rx := rfl
@[simp] theorem setShadow_port (x : Memory) : (s.setShadow x).port = s.port := rfl
@[simp] theorem setShadow_trace (x : Memory) : (s.setShadow x).trace = s.trace := rfl
@[simp] theorem setShadow_results (x : Memory) : (s.setShadow x).results = s.results := rfl
@[simp] theorem setShadow_draws (x : Memory) : (s.setShadow x).draws = s.draws := rfl

@[simp] theorem setTxbuf_params (x : Memory) : (s.setTxbuf x).params = s.params := rfl
@[simp] theorem setTxbuf_shadow (x : Memory) : (s.setTxbuf x).shadow = s.shadow := rfl
@[simp] theorem setTxbuf_txbuf (x : Memory) : (s.setTxbuf x).txbuf = x := rfl
@[simp] theorem setTxbuf_level (x : Memory) : (s.setTxbuf x).level = s.level := rfl
@[simp] theorem setTxbuf_dir (x : Memory) : (s.setTxbuf x).dir = s.dir := rfl
@[simp] theorem setTxbuf_seq (x : Memory) : (s.setTxbuf x).seq = s.seq := rfl
@[simp] theorem setTxbuf_micro (x : Memory) : (s.setTxbuf x).micro = s.micro := rfl
@[simp] theorem setTxbuf_rx (x : Memory) : (s.setTxbuf x).rx = s.rx := rfl
@[simp] theorem setTxbuf_port (x : Memory) : (s.setTxbuf x).port = s.port := rfl
@[simp] theorem setTxbuf_trace (x : Memory) : (s.setTxbuf x).trace = s.trace := rfl
@[simp] theorem setTxbuf_results (x : Memory) : (s.setTxbuf x).results = s.results := rfl
@[simp] theorem setTxbuf_draws (x : Memory) : (s.setTxbuf x).draws = s.draws := rfl

@[simp] theorem setLevel_params (x : PerPin Bool) : (s.setLevel x).params = s.params := rfl
@[simp] theorem setLevel_shadow (x : PerPin Bool) : (s.setLevel x).shadow = s.shadow := rfl
@[simp] theorem setLevel_txbuf (x : PerPin Bool) : (s.setLevel x).txbuf = s.txbuf := rfl
@[simp] theorem setLevel_level (x : PerPin Bool) : (s.setLevel x).level = x := rfl
@[simp] theorem setLevel_dir (x : PerPin Bool) : (s.setLevel x).dir = s.dir := rfl
@[simp] theorem setLevel_seq (x : PerPin Bool) : (s.setLevel x).seq = s.seq := rfl
@[simp] theorem setLevel_micro (x : PerPin Bool) : (s.setLevel x).micro = s.micro := rfl
@[simp] theorem setLevel_rx (x : PerPin Bool) : (s.setLevel x).rx = s.rx := rfl
@[simp] theorem setLevel_port (x : PerPin Bool) : (s.setLevel x).port = s.port := rfl
@[simp] theorem setLevel_trace (x : PerPin Bool) : (s.setLevel x).trace = s.trace := rfl
@[simp] theorem setLevel_results (x : PerPin Bool) : (s.setLevel x).results = s.results := rfl
@[simp] theorem setLevel_draws (x : PerPin Bool) : (s.setLevel x).draws = s.draws := rfl

@[simp] theorem setDir_params (x : PerPin PinDir) : (s.setDir x).params = s.params := rfl
@[simp] theorem setDir_shadow (x : PerPin PinDir) : (s.setDir x).shadow = s.shadow := rfl
@[simp] theorem setDir_txbuf (x : PerPin PinDir) : (s.setDir x).txbuf = s.txbuf := rfl
@[simp] theorem setDir_level (x : PerPin PinDir) : (s.setDir x).level = s.level := rfl
@[simp] theorem setDir_dir (x : PerPin PinDir) : (s.setDir x).dir = x := rfl
@[simp] theorem setDir_seq (x : PerPin PinDir) : (s.setDir x).seq = s.seq := rfl
@[simp] theorem setDir_micro (x : PerPin PinDir) : (s.setDir x).micro = s.micro := rfl
@[simp] theorem setDir_rx (x : PerPin PinDir) : (s.setDir x).rx = s.rx := rfl
@[simp] theorem setDir_port (x : PerPin PinDir) : (s.setDir x).port = s.port := rfl
@[simp] theorem setDir_trace (x : PerPin PinDir) : (s.setDir x).trace = s.trace := rfl
@[simp] theorem setDir_results (x : PerPin PinDir) : (s.setDir x).results = s.results := rfl
@[simp] theorem setDir_draws (x : PerPin PinDir) : (s.setDir x).draws = s.draws := rfl

@[simp] theorem setSeq_params (x : Seq) : (s.setSeq x).params = s.params := rfl
@[simp] theorem setSeq_shadow (x : Seq) : (s.setSeq x).shadow = s.shadow := rfl
@[simp] theorem setSeq_txbuf (x : Seq) : (s.setSeq x).txbuf = s.txbuf := rfl
@[simp] theorem setSeq_level (x : Seq) : (s.setSeq x).level = s.level := rfl
@[simp] theorem setSeq_dir (x : Seq) : (s.setSeq x).dir = s.dir := rfl
@[simp] theorem setSeq_seq (x : Seq) : (s.setSeq x).seq = x := rfl
@[simp] theorem setSeq_micro (x : Seq) : (s.setSeq x).micro = s.micro := rfl
@[simp] theorem setSeq_rx (x : Seq) : (s.setSeq x).rx = s.rx := rfl
@[simp] theorem setSeq_port (x : Seq) : (s.setSeq x).port = s.port := rfl
@[simp] theorem setSeq_trace (x : Seq) : (s.setSeq x).trace = s.trace := rfl
@[simp] theorem setSeq_results (x : Seq) : (s.setSeq x).results = s.results := rfl
@[simp] theorem setSeq_draws (x : Seq) : (s.setSeq x).draws = s.draws := rfl

@[simp] theorem setMicro_params (x : MicroPos) : (s.setMicro x).params = s.params := rfl
@[simp] theorem setMicro_shadow (x : MicroPos) : (s.setMicro x).shadow = s.shadow := rfl
@[simp] theorem setMicro_txbuf (x : MicroPos) : (s.setMicro x).txbuf = s.txbuf := rfl
@[simp] theorem setMicro_level (x : MicroPos) : (s.setMicro x).level = s.level := rfl
@[simp] theorem setMicro_dir (x : MicroPos) : (s.setMicro x).dir = s.dir := rfl
@[simp] theorem setMicro_seq (x : MicroPos) : (s.setMicro x).seq = s.seq := rfl
@[simp] theorem setMicro_micro (x : MicroPos) : (s.setMicro x).micro = x := rfl
@[simp] theorem setMicro_rx (x : MicroPos) : (s.setMicro x).rx = s.rx := rfl
@[simp] theorem setMicro_port (x : MicroPos) : (s.setMicro x).port = s.port := rfl
@[simp] theorem setMicro_trace (x : MicroPos) : (s.setMicro x).trace = s.trace := rfl
@[simp] theorem setMicro_results (x : MicroPos) : (s.setMicro x).results = s.results := rfl
@[simp] theorem setMicro_draws (x : MicroPos) : (s.setMicro x).draws = s.draws := rfl

@[simp] theorem setRx_params (x : Receiver) : (s.setRx x).params = s.params := rfl
@[simp] theorem setRx_shadow (x : Receiver) : (s.setRx x).shadow = s.shadow := rfl
@[simp] theorem setRx_txbuf (x : Receiver) : (s.setRx x).txbuf = s.txbuf := rfl
@[simp] theorem setRx_level (x : Receiver) : (s.setRx x).level = s.level := rfl
@[simp] theorem setRx_dir (x : Receiver) : (s.setRx x).dir = s.dir := rfl
@[simp] theorem setRx_seq (x : Receiver) : (s.setRx x).seq = s.seq := rfl
@[simp] theorem setRx_micro (x : Receiver) : (s.setRx x).micro = s.micro := rfl
@[simp] theorem setRx_rx (x : Receiver) : (s.setRx x).rx = x := rfl
@[simp] theorem setRx_port (x : Receiver) : (s.setRx x).port = s.port := rfl
@[simp] theorem setRx_trace (x : Receiver) : (s.setRx x).trace = s.trace := rfl
@[simp] theorem setRx_results (x : Receiver) : (s.setRx x).results = s.results := rfl
@[simp] theorem setRx_draws (x : Receiver) : (s.setRx x).draws = s.draws := rfl

@[simp] theorem setPort_params (x : List HostOp) : (s.setPort x).params = s.params := rfl
@[simp] theorem setPort_shadow (x : List HostOp) : (s.setPort x).shadow = s.shadow := rfl
@[simp] theorem setPort_txbuf (x : List HostOp) : (s.setPort x).txbuf = s.txbuf := rfl
@[simp] theorem setPort_level (x : List HostOp) : (s.setPort x).level = s.level := rfl
@[simp] theorem setPort_dir (x : List HostOp) : (s.setPort x).dir = s.dir := rfl
@[simp] theorem setPort_seq (x : List HostOp) : (s.setPort x).seq = s.seq := rfl
@[simp] theorem setPort_micro (x : List HostOp) : (s.setPort x).micro = s.micro := rfl
@[simp] theorem setPort_rx (x : List HostOp) : (s.setPort x).rx = s.rx := rfl
@[simp] theorem setPort_port (x : List HostOp) : (s.setPort x).port = x := rfl
@[simp] theorem setPort_trace (x : List HostOp) : (s.setPort x).trace = s.trace := rfl
@[simp] theorem setPort_results (x : List HostOp) : (s.setPort x).results = s.results := rfl
@[simp] theorem setPort_draws (x : List HostOp) : (s.setPort x).draws = s.draws := rfl

@[simp] theorem setTrace_params (x : List Event) : (s.setTrace x).params = s.params := rfl
@[simp] theorem setTrace_shadow (x : List Event) : (s.setTrace x).shadow = s.shadow := rfl
@[simp] theorem setTrace_txbuf (x : List Event) : (s.setTrace x).txbuf = s.txbuf := rfl
@[simp] theorem setTrace_level (x : List Event) : (s.setTrace x).level = s.level := rfl
@[simp] theorem setTrace_dir (x : List Event) : (s.setTrace x).dir = s.dir := rfl
@[simp] theorem setTrace_seq (x : List Event) : (s.setTrace x).seq = s.seq := rfl
@[simp] theorem setTrace_micro (x : List Event) : (s.setTrace x).micro = s.micro := rfl
@[simp] theorem setTrace_rx (x : List Event) : (s.setTrace x).rx = s.rx := rfl
@[simp] theorem setTrace_port (x : List Event) : (s.setTrace x).port = s.port := rfl
@[simp] theorem setTrace_trace (x : List Event) : (s.setTrace x).trace = x := rfl
@[simp] theorem setTrace_results (x : List Event) : (s.setTrace x).results = s.results := rfl
@[simp] theorem setTrace_draws (x : List Event) : (s.setTrace x).draws = s.draws := rfl

@[simp] theorem setResults_params (x : List Result) : (s.setResults x).params = s.params := rfl
@[simp] theorem setResults_shadow (x : List Result) : (s.setResults x).shadow = s.shadow := rfl
@[simp] theorem setResults_txbuf (x : List Result) : (s.setResults x).txbuf = s.txbuf := rfl
@[simp] theorem setResults_level (x : List Result) : (s.setResults x).level = s.level := rfl
@[simp] theorem setResults_dir (x : List Result) : (s.setResults x).dir = s.dir := rfl
@[simp] theorem setResults_seq (x : List Result) : (s.setResults x).seq = s.seq := rfl
@[simp] theorem setResults_micro (x : List Result) : (s.setResults x).micro = s.micro := rfl
@[simp] theorem setResults_rx (x : List Result) : (s.setResults x).rx = s.rx := rfl
@[simp] theorem setResults_port (x : List Result) : (s.setResults x).port = s.port := rfl
@[simp] theorem setResults_trace (x : List Result) : (s.setResults x).trace = s.trace := rfl
@[simp] theorem setResults_results (x : List Result) : (s.setResults x).results = x := rfl
@[simp] theorem setResults_draws (x : List Result) : (s.setResults x).draws = s.draws := rfl

@[simp] theorem setDraws_params (x : Nat) : (s.setDraws x).params = s.params := rfl
@[simp] theorem setDraws_shadow (x : Nat) : (s.setDraws x).shadow = s.shadow := rfl
@[simp] theorem setDraws_txbuf (x : Nat) : (s.setDraws x).txbuf = s.txbuf := rfl
@[simp] theorem setDraws_level (x : Nat) : (s.setDraws x).level = s.level := rfl
@[simp] theorem setDraws_dir (x : Nat) : (s.setDraws x).dir = s.dir := rfl
@[simp] theorem setDraws_seq (x : Nat) : (s.setDraws x).seq = s.seq := rfl
@[simp] theorem setDraws_micro (x : Nat) : (s.setDraws x).micro = s.micro := rfl
@[simp] theorem setDraws_rx (x : Nat) : (s.setDraws x).rx = s.rx := rfl
@[simp] theorem setDraws_port (x : Nat) : (s.setDraws x).port = s.port := rfl
@[simp] theorem setDraws_trace (x : Nat) : (s.setDraws x).trace = s.trace := rfl
@[simp] theorem setDraws_results (x : Nat) : (s.setDraws x).results = s.results := rfl
@[simp] theorem setDraws_draws (x : Nat) : (s.setDraws x).draws = x := rfl

@[simp] theorem setShadow_devices (x : Memory) : (s.setShadow x).devices = s.devices := rfl
@[simp] theorem setTxbuf_devices (x : Memory) : (s.setTxbuf x).devices = s.devices := rfl
@[simp] theorem setLevel_devices (x : PerPin Bool) : (s.setLevel x).devices = s.devices := rfl
@[simp] theorem setDir_devices (x : PerPin PinDir) : (s.setDir x).devices = s.devices := rfl
@[simp] theorem setSeq_devices (x : Seq) : (s.setSeq x).devices = s.devices := rfl
@[simp] theorem setMicro_devices (x : MicroPos) : (s.setMicro x).devices = s.devices := rfl
@[simp] theorem setRx_devices (x : Receiver) : (s.setRx x).devices = s.devices := rfl
@[simp] theorem setPort_devices (x : List HostOp) : (s.setPort x).devices = s.devices := rfl
@[simp] theorem setTrace_devices (x : List Event) : (s.setTrace x).devices = s.devices := rfl
@[simp] theorem setResults_devices (x : List Result) : (s.setResults x).devices = s.devices := rfl
@[simp] theorem setDraws_devices (x : Nat) : (s.setDraws x).devices = s.devices := rfl

/-- Two states that agree on every field are equal. -/
theorem State.ext_fields {s t : State} (h1 : s.params = t.params) (h2 : s.shadow = t.shadow)
    (h3 : s.txbuf = t.txbuf) (h4 : s.level = t.level) (h5 : s.dir = t.dir) (h6 : s.seq = t.seq)
    (h7 : s.micro = t.micro) (h8 : s.rx = t.rx) (h9 : s.port = t.port) (h10 : s.trace = t.trace)
    (h11 : s.results = t.results) (h12 : s.draws = t.draws) : s = t := by
  cases s; cases t; simp_all

/-- The chain has at least one device (R6). -/
theorem devices_pos : 0 < s.devices := Nat.succ_pos _

end Sys2Proof.Machine
end

