-- ==== Sys2Proof/Laws/Serializer.lean ====
section
/-!
SUPPORT. What a pin write, a bit, a byte and a frame do, each said once: the events, the levels, the chain,
and that nothing else changes.
-/

namespace Sys2Proof.Machine

open Sys2Proof.Safety

section Pin

variable (p : Pin) (l : Bool) (s : State)

@[simp] theorem pin_params : (pin p l s).params = s.params := rfl
@[simp] theorem pin_devices : (pin p l s).devices = s.devices := rfl
@[simp] theorem pin_shadow : (pin p l s).shadow = s.shadow := rfl
@[simp] theorem pin_txbuf : (pin p l s).txbuf = s.txbuf := rfl
@[simp] theorem pin_level : (pin p l s).level = s.level.put p l := rfl
@[simp] theorem pin_dir : (pin p l s).dir = s.dir := rfl
@[simp] theorem pin_seq : (pin p l s).seq = s.seq := rfl
@[simp] theorem pin_micro : (pin p l s).micro = s.micro := rfl
@[simp] theorem pin_rx : (pin p l s).rx = onPinWrite s.params.wired s.level p l s.rx := rfl
@[simp] theorem pin_port : (pin p l s).port = s.port := rfl
@[simp] theorem pin_trace : (pin p l s).trace = s.trace ++ [.write p l] := rfl
@[simp] theorem pin_results : (pin p l s).results = s.results := rfl
@[simp] theorem pin_draws : (pin p l s).draws = s.draws := rfl

end Pin

/-- The bits of a list sent one after the other. -/
def sendAll (bs : List Bool) (s : State) : State := bs.foldl (fun t b => sendBit b t) s

/-- The shift register after bits entered it one by one. -/
def shiftAll (wired : Nat) (bs : List Bool) (chain : List Bool) : List Bool :=
  bs.foldl (fun c b => (b :: c).take (16 * wired)) chain

/-- The shift register after a list of bits was sent: the first bit is no edge when CLK is high at the start
(41_bit_serializer.md R132, 70_reset_and_hazards.md R264). -/
def chainAfter (wired : Nat) (clkHigh : Bool) (bs : List Bool) (chain : List Bool) : List Bool :=
  shiftAll wired (if clkHigh then bs.drop 1 else bs) chain

theorem shiftAll_append (wired : Nat) (as bs chain : List Bool) :
    shiftAll wired (as ++ bs) chain = shiftAll wired bs (shiftAll wired as chain) := by
  simp [shiftAll, List.foldl_append]

/-- Bits that entered stand nearest the controller, the last one first; the far end is cut off (R60). -/
theorem shiftAll_eq (wired : Nat) (bs chain : List Bool) (h : chain.length ≤ 16 * wired) :
    shiftAll wired bs chain = (bs.reverse ++ chain).take (16 * wired) := by
  induction bs generalizing chain with
  | nil => simpa [shiftAll] using (List.take_of_length_le h).symm
  | cons b bs ih =>
    have : shiftAll wired (b :: bs) chain = shiftAll wired bs ((b :: chain).take (16 * wired)) := rfl
    rw [this, ih _ (by simp), List.reverse_cons, List.append_assoc, List.singleton_append,
      List.take_append, List.take_append (l₁ := bs.reverse), List.take_take,
      Nat.min_eq_left (Nat.sub_le _ _)]

theorem shiftAll_length (wired : Nat) (bs chain : List Bool) (h : chain.length = 16 * wired) :
    (shiftAll wired bs chain).length = 16 * wired := by
  rw [shiftAll_eq _ _ _ h.le]; simp [h]

theorem sendAll_append (as bs : List Bool) (s : State) :
    sendAll (as ++ bs) s = sendAll bs (sendAll as s) := by
  simp [sendAll, List.foldl_append]

/-- What one bit does (R130). -/
theorem sendBit_eq (b : Bool) (s : State) :
    sendBit b s =
      { s with
        level := ⟨b, false, s.level.load⟩
        rx := { s.rx with chain := chainAfter s.params.wired s.level.clk [b] s.rx.chain }
        trace := s.trace ++ bitEvents b } := by
  unfold sendBit
  cases h : s.level.clk <;>
    apply State.ext_fields <;>
    simp [h, onPinWrite, PerPin.put, shiftEdge, chainAfter, shiftAll, bitEvents]

/-- What a list of bits does. -/
theorem sendAll_eq (bs : List Bool) (s : State) :
    sendAll bs s =
      { s with
        level := if bs = [] then s.level else ⟨bs.getLast?.getD false, false, s.level.load⟩
        rx := { s.rx with chain := chainAfter s.params.wired s.level.clk bs s.rx.chain }
        trace := s.trace ++ bs.flatMap bitEvents } := by
  induction bs generalizing s with
  | nil => apply State.ext_fields <;> simp [sendAll, chainAfter, shiftAll]
  | cons b bs ih =>
    have : sendAll (b :: bs) s = sendAll bs (sendBit b s) := List.foldl_cons ..
    rw [this, ih, sendBit_eq]
    apply State.ext_fields <;> simp only
    · cases bs with
      | nil => simp
      | cons c bs =>
        simp [List.getLast?_cons]
    · cases h : s.level.clk <;> simp [chainAfter, shiftAll]
    · simp

/-- A byte is its bits, most significant first (R54, R130). -/
theorem serializeByte_eq_sendAll (v : Byte) (s : State) :
    serializeByte v s = sendAll (bitsMsbFirst v) s := rfl

theorem slotByte_first (s : State) (d : Nat) : slotByte s d .first = s.txbuf.read (2 * d) := rfl
theorem slotByte_second (s : State) (d : Nat) : slotByte s d .second = s.txbuf.read (2 * d + 1) := rfl

theorem sendAll_txbuf (bs : List Bool) (s : State) : (sendAll bs s).txbuf = s.txbuf := by
  rw [sendAll_eq]

theorem sendSlot_eq_sendAll (d : Nat) (s : State) :
    sendSlot d s =
      sendAll (bitsMsbFirst (s.txbuf.read (2 * d)) ++ bitsMsbFirst (s.txbuf.read (2 * d + 1))) s := by
  rw [sendAll_append, sendSlot, serializeByte_eq_sendAll, serializeByte_eq_sendAll]; rfl

/-- The slots of the `k` nearest devices are the bits of their wire bytes (R57). -/
theorem sendSlots_eq_sendAll (k : Nat) (s : State) :
    sendSlots k s = sendAll ((wireBytes s.txbuf k).flatMap bitsMsbFirst) s := by
  induction k generalizing s with
  | zero => rfl
  | succ k ih =>
    rw [sendSlots, ih, sendSlot_eq_sendAll, sendAll_txbuf, ← sendAll_append]
    simp [wireBytes]

theorem bitsMsbFirst_getLast (v : Byte) : (bitsMsbFirst v).getLast? = some (v.getLsbD 0) := rfl

theorem wireBits_getLast (txbuf : Memory) (k : Nat) :
    ((wireBytes txbuf (k + 1)).flatMap bitsMsbFirst).getLast? = some ((txbuf.read 1).getLsbD 0) := by
  induction k with
  | zero => simp [wireBytes, bitsMsbFirst]
  | succ k ih =>
    rw [wireBytes]
    simp only [List.flatMap_cons, ← List.append_assoc]
    rw [List.getLast?_append, ih]; rfl

theorem byteEvents_flatMap (bytes : List Byte) :
    (bytes.flatMap bitsMsbFirst).flatMap bitEvents = bytes.flatMap byteEvents := by
  rw [List.flatMap_assoc]; rfl

/-- What `transmit_chain` does (R141, R142): the frame's events, the levels it leaves, the chain it shifts and
the latch it ends with; nothing else. -/
theorem transmitChain_eq (s : State) :
    transmitChain s =
      { s with
        level := ⟨(s.txbuf.read 1).getLsbD 0, false, true⟩
        rx := latchEdge s.params.wired
          { s.rx with
            chain := chainAfter s.params.wired s.level.clk
              ((wireBytes s.txbuf s.devices).flatMap bitsMsbFirst) s.rx.chain }
        trace := s.trace ++ frameEvents (wireBytes s.txbuf s.devices) } := by
  have hne : (wireBytes s.txbuf s.devices).flatMap bitsMsbFirst ≠ [] := by
    show (wireBytes s.txbuf (s.params.farthest + 1)).flatMap bitsMsbFirst ≠ []
    simp [wireBytes, bitsMsbFirst]
  have hlast : ((wireBytes s.txbuf s.devices).flatMap bitsMsbFirst).getLast? =
      some ((s.txbuf.read 1).getLsbD 0) := wireBits_getLast _ _
  unfold transmitChain
  rw [sendSlots_eq_sendAll, sendAll_eq]
  apply State.ext_fields <;>
    simp [PerPin.put, onPinWrite, hne, hlast, frameEvents, byteEvents_flatMap]

section Transmit

variable (s : State)

@[simp] theorem transmitChain_params : (transmitChain s).params = s.params := by
  rw [transmitChain_eq]
@[simp] theorem transmitChain_shadow : (transmitChain s).shadow = s.shadow := by
  rw [transmitChain_eq]
@[simp] theorem transmitChain_txbuf : (transmitChain s).txbuf = s.txbuf := by
  rw [transmitChain_eq]
@[simp] theorem transmitChain_level :
    (transmitChain s).level = ⟨(s.txbuf.read 1).getLsbD 0, false, true⟩ := by rw [transmitChain_eq]
@[simp] theorem transmitChain_dir : (transmitChain s).dir = s.dir := by rw [transmitChain_eq]
@[simp] theorem transmitChain_seq : (transmitChain s).seq = s.seq := by rw [transmitChain_eq]
@[simp] theorem transmitChain_micro : (transmitChain s).micro = s.micro := by rw [transmitChain_eq]
@[simp] theorem transmitChain_port : (transmitChain s).port = s.port := by rw [transmitChain_eq]
@[simp] theorem transmitChain_results : (transmitChain s).results = s.results := by
  rw [transmitChain_eq]
@[simp] theorem transmitChain_draws : (transmitChain s).draws = s.draws := by rw [transmitChain_eq]
@[simp] theorem transmitChain_trace :
    (transmitChain s).trace = s.trace ++ frameEvents (wireBytes s.txbuf s.devices) := by
  rw [transmitChain_eq]

end Transmit

end Sys2Proof.Machine
end

