-- ==== Sys2Proof/Laws/Receiver.lean ====
section
/-!
SUPPORT. The reference receiver: what a chip holds after a frame, what it does with a word, and what a latch
edge does to the registers (20_memory.md R60 to R62).
-/

namespace Sys2Proof.Machine

open Sys2Proof.Safety

theorem chipKey_inj {d e : Nat} {a b : Byte} : chipKey d a = chipKey e b ↔ d = e ∧ a = b := by
  unfold chipKey
  have ha := a.isLt
  have hb := b.isLt
  constructor
  · intro h
    refine ⟨by omega, BitVec.eq_of_toNat_eq (by omega)⟩
  · rintro ⟨rfl, rfl⟩; rfl

section Writes

variable (reg : ChipReg) (data : Byte) (r : Receiver)

@[simp] theorem writeReg_chain : (writeReg reg data r).chain = r.chain := rfl
@[simp] theorem writeReg_latched : (writeReg reg data r).latched = r.latched := rfl
@[simp] theorem writeReg_acting : (writeReg reg data r).acting = r.acting := rfl
@[simp] theorem writeReg_draws : (writeReg reg data r).draws = r.draws := rfl
@[simp] theorem writeReg_regs :
    (writeReg reg data r).regs = r.regs.write (chipKey r.acting reg.opcode) data := rfl

end Writes

/-- A chip that takes a command for a register writes its data byte there and nothing else. -/
theorem takeWord_reg (r : Receiver) (d : Nat) (reg : ChipReg) (data : Byte) :
    takeWord r (d, wireWord data reg.opcode) = writeReg reg data { r with acting := d } := by
  unfold takeWord decodeWire
  simp only [wireOpcode_wireWord, wireData_wireWord]
  cases reg <;> rfl

/-- A chip that takes a no-op does nothing, whatever the data (R110). -/
theorem takeWord_noop (r : Receiver) (d : Nat) (data : Byte) :
    takeWord r (d, wireWord data Config.opNoop) = { r with acting := d } := by
  unfold takeWord decodeWire
  simp only [wireOpcode_wireWord, wireData_wireWord]
  rfl

/-- What `runWire` can do: nothing, or a write of one register of the chip that acts. -/
theorem runWire_cases (i : Instr) (r : Receiver) :
    runWire i r = r ∨ ∃ reg data, runWire i r = writeReg reg data r := by
  cases i <;> first | exact .inl rfl | exact .inr ⟨_, _, rfl⟩

/-- A receiver that differs from another only in registers of one chip, the chip that acts and the count of
free values. -/
structure OnlyChip (d : Nat) (r t : Receiver) : Prop where
  chain : t.chain = r.chain
  latched : t.latched = r.latched
  others : ∀ e a, e ≠ d → t.regs.read (chipKey e a) = r.regs.read (chipKey e a)
  wf : r.regs.wf → t.regs.wf
  below : ∀ k, 256 * d + 256 ≤ k → r.regs.below k → t.regs.below k

theorem OnlyChip.write {d : Nat} {r t : Receiver} (h : OnlyChip d r t) (ht : t.acting = d) (reg : ChipReg)
    (v : Byte) : OnlyChip d r (writeReg reg v t) where
  chain := h.chain
  latched := h.latched
  others e a he := by
    rw [writeReg_regs, Memory.read_write, ht, if_neg (by rw [chipKey_inj]; tauto), h.others e a he]
  wf hr := Memory.write_wf (h.wf hr) _ _
  below k hk hr := Memory.write_below (h.below k hk hr)
    (by have := reg.opcode.isLt; rw [ht]; unfold chipKey; omega) _

theorem OnlyChip.refl {r : Receiver} (d : Nat) : OnlyChip d r { r with acting := d } :=
  ⟨rfl, rfl, fun _ _ _ => rfl, id, fun _ _ => id⟩

/-- A chip that takes a word changes its own registers alone, RESERVED opcodes included. -/
theorem takeWord_onlyChip (r : Receiver) (d : Nat) (w : Word) : OnlyChip d r (takeWord r (d, w)) := by
  unfold takeWord
  split
  · rename_i i _
    rcases runWire_cases i { r with acting := d } with h | ⟨reg, data, h⟩
    · rw [h]; exact .refl d
    · rw [h]; exact (OnlyChip.refl d).write rfl reg data
  · have key : ∀ (l : List ChipReg) (t : Receiver), t.acting = d → OnlyChip d r t →
        OnlyChip d r (l.foldl
          (fun t reg => writeReg reg (Config.reservedChipByte r.draws reg.opcode) t) t) := by
      intro l
      induction l with
      | nil => intro t _ h; exact h
      | cons reg l ih => intro t ht h; exact ih _ ht (h.write ht reg _)
    have h := key chipRegList { r with acting := d } rfl (.refl d)
    exact ⟨h.chain, h.latched, h.others, h.wf, h.below⟩

/-- What is left of the chips' registers after chips took their words, one after the other: a chip not among
them keeps its registers. -/
theorem foldl_takeWord_others (l : List (Nat × Word)) (r : Receiver) (e : Nat) (a : Byte)
    (h : ∀ dw ∈ l, dw.1 ≠ e) :
    (l.foldl takeWord r).regs.read (chipKey e a) = r.regs.read (chipKey e a) := by
  induction l generalizing r with
  | nil => rfl
  | cons dw l ih =>
    rw [List.foldl_cons, ih _ (fun x hx => h x (by simp [hx]))]
    exact (takeWord_onlyChip r dw.1 dw.2).others e a (h dw (by simp)).symm

theorem foldl_takeWord_chain (l : List (Nat × Word)) (r : Receiver) :
    (l.foldl takeWord r).chain = r.chain := by
  induction l generalizing r with
  | nil => rfl
  | cons dw l ih => rw [List.foldl_cons, ih, (takeWord_onlyChip r dw.1 dw.2).chain]

theorem foldl_takeWord_latched (l : List (Nat × Word)) (r : Receiver) :
    (l.foldl takeWord r).latched = r.latched := by
  induction l generalizing r with
  | nil => rfl
  | cons dw l ih => rw [List.foldl_cons, ih, (takeWord_onlyChip r dw.1 dw.2).latched]

theorem foldl_takeWord_wf (l : List (Nat × Word)) (r : Receiver) (h : r.regs.wf) :
    (l.foldl takeWord r).regs.wf := by
  induction l generalizing r with
  | nil => exact h
  | cons dw l ih => exact ih _ ((takeWord_onlyChip r dw.1 dw.2).wf h)

theorem foldl_takeWord_below (l : List (Nat × Word)) (r : Receiver) (wired : Nat)
    (hl : ∀ dw ∈ l, dw.1 < wired) (h : r.regs.below (256 * wired)) :
    (l.foldl takeWord r).regs.below (256 * wired) := by
  induction l generalizing r with
  | nil => exact h
  | cons dw l ih =>
    refine ih _ (fun x hx => hl x (by simp [hx])) ?_
    exact (takeWord_onlyChip r dw.1 dw.2).below _ (by have := hl dw (by simp); omega) h

section Latch

variable (wired : Nat) (r : Receiver)

@[simp] theorem latchEdge_chain : (latchEdge wired r).chain = r.chain := foldl_takeWord_chain _ _
@[simp] theorem latchEdge_latched : (latchEdge wired r).latched = [] := foldl_takeWord_latched _ _
@[simp] theorem latchEdge_acting : (latchEdge wired r).acting = r.acting := rfl

theorem latchEdge_wf (h : r.regs.wf) : (latchEdge wired r).regs.wf := foldl_takeWord_wf _ _ h

theorem wordsHeld_lt (chain : List Bool) : ∀ dw ∈ wordsHeld wired chain, dw.1 < wired := by
  intro dw h
  simp only [wordsHeld, List.mem_map, List.mem_range] at h
  obtain ⟨d, hd, rfl⟩ := h
  exact hd

theorem latchEdge_below (h : r.regs.below (256 * wired)) :
    (latchEdge wired r).regs.below (256 * wired) :=
  foldl_takeWord_below _ _ wired (wordsHeld_lt wired r.chain) h

end Latch

/-- At a latch edge a wired chip does what its own word says and nothing another chip's word says. -/
theorem foldl_takeWord_own (f : Nat → Word) (k d : Nat) (r : Receiver) (a : Byte) (hd : d < k) :
    ∃ t : Receiver, (∀ b, t.regs.read (chipKey d b) = r.regs.read (chipKey d b)) ∧
      (((List.range k).map (fun d => (d, f d))).foldl takeWord r).regs.read (chipKey d a) =
        (takeWord t (d, f d)).regs.read (chipKey d a) := by
  induction k with
  | zero => omega
  | succ k ih =>
    simp only [List.range_succ, List.map_append, List.map_cons, List.map_nil, List.foldl_append,
      List.foldl_cons, List.foldl_nil]
    by_cases hk : d = k
    · subst hk
      refine ⟨_, fun b => ?_, rfl⟩
      exact foldl_takeWord_others _ _ _ _ (by simp; intro a ha; omega)
    · obtain ⟨t, ht, h⟩ := ih (by omega)
      refine ⟨t, ht, ?_⟩
      rw [(takeWord_onlyChip _ k (f k)).others d a hk, h]

/-- At the latch edge a wired chip whose word is a wire command has in its registers what that word alone gives,
whatever words, RESERVED ones included, the other chips took. -/
theorem latchEdge_own (wired : Nat) (r : Receiver) (d : Nat) (hd : d < wired) (a : Byte) {i : Instr}
    (h : decodeWire (chipWord r.chain d) = .ok i) :
    (latchEdge wired r).regs.read (chipKey d a) =
      (takeWord r (d, chipWord r.chain d)).regs.read (chipKey d a) := by
  obtain ⟨t, ht, h'⟩ := foldl_takeWord_own (chipWord r.chain) wired d
    { r with latched := [] } a hd
  show (((List.range wired).map (fun d => (d, chipWord r.chain d))).foldl takeWord
    { r with latched := [] }).regs.read (chipKey d a) = _
  rw [h']
  rw [← wireWord_of_parts (chipWord r.chain d)]
  rcases decodeWire_ok h with ⟨ho, _⟩ | ⟨reg, ho, _⟩
  · rw [ho, takeWord_noop, takeWord_noop]
    exact ht a
  · rw [ho, takeWord_reg, takeWord_reg, writeReg_regs, writeReg_regs, Memory.read_write, Memory.read_write,
      show t.regs.read (chipKey d a) = r.regs.read (chipKey d a) from ht a]

/-- A place with no chip keeps what its registers read at the latch edge. -/
theorem latchEdge_unwired (wired : Nat) (r : Receiver) (d : Nat) (hd : wired ≤ d) (a : Byte) :
    (latchEdge wired r).regs.read (chipKey d a) = r.regs.read (chipKey d a) :=
  foldl_takeWord_others _ _ _ _ fun dw h => by have := wordsHeld_lt wired r.chain dw h; omega

/-- A chip that holds a command for a register writes it at the latch edge and keeps its other registers. -/
theorem latchEdge_reg (wired : Nat) (r : Receiver) (d : Nat) (hd : d < wired) (reg : ChipReg)
    (data a : Byte) (h : chipWord r.chain d = wireWord data reg.opcode) :
    (latchEdge wired r).regs.read (chipKey d a) =
      if a = reg.opcode then data else r.regs.read (chipKey d a) := by
  rw [latchEdge_own wired r d hd a (h ▸ decodeWire_reg reg data), h, takeWord_reg, writeReg_regs,
    Memory.read_write]
  simp [chipKey_inj]

/-- A chip that holds a no-op keeps its registers at the latch edge. -/
theorem latchEdge_noop (wired : Nat) (r : Receiver) (d : Nat) (hd : d < wired) (data a : Byte)
    (h : chipWord r.chain d = wireWord data Config.opNoop) :
    (latchEdge wired r).regs.read (chipKey d a) = r.regs.read (chipKey d a) := by
  rw [latchEdge_own wired r d hd a (h ▸ decodeWire_noop data), h, takeWord_noop]

theorem bitsToNat_testBit (l : List Bool) (i : Nat) : (bitsToNat l).testBit i = l.getD i false := by
  induction l generalizing i with
  | nil => simp [bitsToNat]
  | cons b l ih =>
    cases i with
    | zero => cases b <;> simp [bitsToNat, Nat.testBit_zero]
    | succ i =>
      rw [Nat.testBit_succ]
      have : bitsToNat (b :: l) / 2 = bitsToNat l := by
        cases b
        · simp [bitsToNat]
        · simp only [bitsToNat, Bool.toNat_true]; omega
      rw [this, ih]; rfl

/-- The bits of a slot in the order received are its word (R61, R81). -/
theorem word_of_slotBits (data opcode : Byte) :
    BitVec.ofNat 16 (bitsToNat (bitsMsbFirst data ++ bitsMsbFirst opcode).reverse) =
      wireWord data opcode := by
  ext i hi
  rw [← BitVec.getLsbD_eq_getElem, ← BitVec.getLsbD_eq_getElem, BitVec.getLsbD_ofNat,
    bitsToNat_testBit]
  unfold wireWord
  rw [BitVec.getLsbD_append]
  simp only [hi, decide_true, Bool.true_and, bitsMsbFirst]
  interval_cases i <;> simp

theorem wireBits_length (txbuf : Memory) (k : Nat) :
    ((wireBytes txbuf k).flatMap bitsMsbFirst).length = 16 * k := by
  induction k with
  | zero => rfl
  | succ k ih => simp [wireBytes, ih, bitsMsbFirst]; omega

theorem slot_of_wireBits (txbuf : Memory) (k d : Nat) (hd : d < k) (rest : List Bool) :
    (((((wireBytes txbuf k).flatMap bitsMsbFirst).reverse ++ rest).drop (16 * d)).take 16) =
      (bitsMsbFirst (txbuf.read (2 * d)) ++ bitsMsbFirst (txbuf.read (2 * d + 1))).reverse := by
  induction k generalizing rest with
  | zero => omega
  | succ k ih =>
    have hcons : ((wireBytes txbuf (k + 1)).flatMap bitsMsbFirst).reverse ++ rest =
        ((wireBytes txbuf k).flatMap bitsMsbFirst).reverse ++
          ((bitsMsbFirst (txbuf.read (2 * k)) ++ bitsMsbFirst (txbuf.read (2 * k + 1))).reverse ++
            rest) := by
      simp [wireBytes]
    rw [hcons]
    by_cases hk : d = k
    · subst hk
      rw [List.drop_append_of_le_length (by rw [List.length_reverse, wireBits_length]),
        List.drop_of_length_le (by rw [List.length_reverse, wireBits_length]), List.nil_append,
        List.take_append_of_le_length (by simp [bitsMsbFirst]),
        List.take_of_length_le (by simp [bitsMsbFirst])]
    · exact ih (by omega) _

/-- After a whole frame chip `d` holds exactly its own slot, whatever the chain held before (R61). -/
theorem chipWord_of_frame (txbuf : Memory) (n wired d : Nat) (chain : List Bool) (hn : d < n)
    (hw : d < wired) (hc : chain.length ≤ 16 * wired) :
    chipWord (shiftAll wired ((wireBytes txbuf n).flatMap bitsMsbFirst) chain) d =
      wireWord (txbuf.read (2 * d)) (txbuf.read (2 * d + 1)) := by
  rw [shiftAll_eq _ _ _ hc]
  unfold chipWord slotWord
  simp only [Config.slotOrder]
  rw [List.drop_take, List.take_take, Nat.min_eq_left (by omega), slot_of_wireBits _ _ _ hn,
    word_of_slotBits]

end Sys2Proof.Machine
end

