-- ==== Sys2Proof/Laws/Command.lean ====
section
/-!
SUPPORT. What the checks, the acceptance of an operation and `write_command` do, each said once.
-/

namespace Sys2Proof.Machine

open Sys2Proof.Safety

theorem checked_nil (body : State → State × Result) (s : State) : checked [] body s = body s := rfl

theorem checked_pass (code : Result) (rest : List (Bool × Result)) (body : State → State × Result)
    (s : State) : checked ((true, code) :: rest) body s = checked rest body s := rfl

theorem checked_fail (code : Result) (rest : List (Bool × Result)) (body : State → State × Result)
    (s : State) : checked ((false, code) :: rest) body s = (s, code) := rfl

/-- An operation accepted at Ready runs its body and reports its result. -/
theorem whenReady_accepts {s : State} (h : Accepts s) (body : State → State × Result) :
    whenReady body s = .next (reportResult (body s)) := by
  simp [whenReady, h.1, h.2]

/-- All that `whenReady` can answer. -/
theorem whenReady_next {body : State → State × Result} {s t : State} (h : whenReady body s = .next t) :
    Accepts s ∧ t = reportResult (body s) := by
  unfold whenReady at h
  split at h
  · next hm =>
    split at h
    · next hs => cases h; exact ⟨⟨hs, hm⟩, rfl⟩
    · cases h
  · cases h

/-- All that `whenPowerOnOrReady` can answer. -/
theorem whenPowerOnOrReady_next {body : State → State × Result} {s t : State}
    (h : whenPowerOnOrReady body s = .next t) :
    s.micro = .idle ∧ (s.seq = .powerOn ∨ s.seq = .ready) ∧ t = reportResult (body s) := by
  unfold whenPowerOnOrReady at h
  split at h
  · next hm =>
    split at h
    · next hs => cases h; exact ⟨hm, hs, rfl⟩
    · cases h
  · cases h

section Report

variable (s : State) (code : Result)

@[simp] theorem reportResult_mk : reportResult (s, code) = s.setResults (s.results ++ [code]) := rfl

end Report

theorem validDevice_iff {n : Nat} {device : Int} :
    validDevice n device = true ↔ 0 ≤ device ∧ device < n := by
  simp [validDevice]

theorem inRange_iff {hi z : Int} : inRange hi z = true ↔ 0 ≤ z ∧ z ≤ hi := by simp [inRange]

theorem validDevice_natCast {n d : Nat} : validDevice n (d : Int) = true ↔ d < n := by
  simp [validDevice]

theorem validDevice_toNat {n : Nat} {device : Int} (h : validDevice n device = true) :
    device.toNat < n := by
  rw [validDevice_iff] at h; omega

theorem clearTxbuf_eq (k : Nat) (s : State) : clearTxbuf k s = s.setTxbuf (clearTxbuf k s).txbuf := by
  induction k with
  | zero => rfl
  | succ k ih =>
    rw [clearTxbuf, ih]; rfl

theorem clearTxbuf_read (k : Nat) (s : State) (i : Nat) :
    (clearTxbuf k s).txbuf.read i = if i < k then 0 else s.txbuf.read i := by
  induction k with
  | zero => simp [clearTxbuf]
  | succ k ih =>
    simp only [clearTxbuf, writeTxbuf, setTxbuf_txbuf, Memory.read_write, ih]
    by_cases h : i = k
    · simp [h]
    · have : i < k + 1 ↔ i < k := by omega
      simp [h, this]

theorem clearTxbuf_wf (k : Nat) {s : State} (h : s.txbuf.wf) : (clearTxbuf k s).txbuf.wf := by
  induction k with
  | zero => exact h
  | succ k ih => exact Memory.write_wf ih k 0

theorem clearTxbuf_below {k n : Nat} (hk : k ≤ n) {s : State} (h : s.txbuf.below n) :
    (clearTxbuf k s).txbuf.below n := by
  induction k with
  | zero => exact h
  | succ k ih => exact Memory.write_below (ih (by omega)) (a := k) (by omega) 0

theorem buildBuffer_eq (d : Nat) (o v : Byte) (s : State) :
    buildBuffer d o v s = s.setTxbuf (buildBuffer d o v s).txbuf := by
  unfold buildBuffer writeTxbuf
  rw [clearTxbuf_eq]; rfl

/-- The buffer of one command: zero but the target's pair (R143, R144). -/
theorem buildBuffer_read (d : Nat) (o v : Byte) (s : State) (i : Nat) :
    (buildBuffer d o v s).txbuf.read i =
      if i = 2 * d + 1 then o
      else if i = 2 * d then v else if i < 2 * s.devices then 0 else s.txbuf.read i := by
  simp [buildBuffer, writeTxbuf, clearTxbuf_read, opcodeIndex, dataIndex]

theorem wireBytes_congr {m m' : Memory} {k : Nat} (h : ∀ i, i < 2 * k → m.read i = m'.read i) :
    wireBytes m k = wireBytes m' k := by
  induction k with
  | zero => rfl
  | succ k ih =>
    rw [wireBytes, wireBytes, h _ (by omega), h _ (by omega), ih fun i hi => h i (by omega)]

theorem wireBytes_zero {m : Memory} {k : Nat} (h : ∀ i, i < 2 * k → m.read i = 0) :
    wireBytes m k = List.replicate (2 * k) 0 := by
  induction k with
  | zero => rfl
  | succ k ih =>
    rw [wireBytes, h _ (by omega), h _ (by omega), ih fun i hi => h i (by omega)]
    rfl

/-- The frame of one command in wire order (R145). -/
theorem wireBytes_command {m : Memory} {d n : Nat} {o v : Byte} (hd : d < n)
    (h : ∀ i, i < 2 * n → m.read i = if i = 2 * d then v else if i = 2 * d + 1 then o else 0) :
    wireBytes m n = frameBytes n d o v := by
  induction n with
  | zero => omega
  | succ n ih =>
    by_cases hn : d = n
    · subst hn
      rw [wireBytes, h _ (by omega), h _ (by omega), wireBytes_zero]
      · simp [frameBytes]
      · intro i hi
        rw [h i (by omega), if_neg (by omega), if_neg (by omega)]
    · rw [wireBytes, h _ (by omega), h _ (by omega), if_neg (by omega), if_neg (by omega),
        if_neg (by omega), if_neg (by omega), ih (by omega) fun i hi => h i (by omega)]
      unfold frameBytes
      rw [show 2 * (n + 1 - 1 - d) = 2 * (n - 1 - d) + 1 + 1 by omega, List.replicate_succ,
        List.replicate_succ]
      rfl

section Send

variable (d : Nat) (o v : Byte) (s : State)

theorem sendCommand_unfold :
    sendCommand d o v s = transmitChain (s.setTxbuf (buildBuffer d o v s).txbuf) := by
  rw [sendCommand, ← buildBuffer_eq]

@[simp] theorem sendCommand_params : (sendCommand d o v s).params = s.params := by
  rw [sendCommand_unfold]; simp
@[simp] theorem sendCommand_devices : (sendCommand d o v s).devices = s.devices := by
  unfold State.devices; simp
@[simp] theorem sendCommand_shadow : (sendCommand d o v s).shadow = s.shadow := by
  rw [sendCommand_unfold]; simp
@[simp] theorem sendCommand_txbuf :
    (sendCommand d o v s).txbuf = (buildBuffer d o v s).txbuf := by
  rw [sendCommand_unfold]; simp
@[simp] theorem sendCommand_dir : (sendCommand d o v s).dir = s.dir := by
  rw [sendCommand_unfold]; simp
@[simp] theorem sendCommand_seq : (sendCommand d o v s).seq = s.seq := by
  rw [sendCommand_unfold]; simp
@[simp] theorem sendCommand_micro : (sendCommand d o v s).micro = s.micro := by
  rw [sendCommand_unfold]; simp
@[simp] theorem sendCommand_port : (sendCommand d o v s).port = s.port := by
  rw [sendCommand_unfold]; simp
@[simp] theorem sendCommand_results : (sendCommand d o v s).results = s.results := by
  rw [sendCommand_unfold]; simp
@[simp] theorem sendCommand_draws : (sendCommand d o v s).draws = s.draws := by
  rw [sendCommand_unfold]; simp

theorem buildBuffer_wire {d : Nat} {s : State} (hd : d < s.devices) :
    wireBytes (buildBuffer d o v s).txbuf s.devices = frameBytes s.devices d o v := by
  refine wireBytes_command hd fun i hi => ?_
  rw [buildBuffer_read]
  split
  · next h => rw [if_neg (by omega)]
  · simp

/-- What one command does to the trace (R145). -/
theorem sendCommand_trace {d : Nat} {s : State} (hd : d < s.devices) :
    (sendCommand d o v s).trace = s.trace ++ commandEvents s.devices d o v := by
  rw [sendCommand_unfold, transmitChain_trace]
  simp only [setTxbuf_trace, setTxbuf_txbuf, setTxbuf_devices]
  rw [buildBuffer_wire o v hd]; rfl

/-- The levels one command leaves (R142 (e)). -/
theorem sendCommand_level :
    (sendCommand d o v s).level = ⟨if d = 0 then o.getLsbD 0 else false, false, true⟩ := by
  rw [sendCommand_unfold, transmitChain_level, setTxbuf_txbuf, buildBuffer_read]
  have := devices_pos s
  by_cases h : d = 0
  · simp [h]
  · have h1 : 1 ≠ 2 * d + 1 := by omega
    have h2 : 1 ≠ 2 * d := by omega
    have h3 : 1 < 2 * s.devices := by omega
    simp [h, h2, h3]

/-- All that one command does to the block. -/
theorem sendCommand_sentFrame {d : Nat} {s : State} (hd : d < s.devices) :
    SentFrame d o v s (sendCommand d o v s) where
  trace := sendCommand_trace o v hd
  txbuf i hi := by
    rw [sendCommand_txbuf, buildBuffer_read]
    split
    · next h => rw [if_neg (by omega)]
    · simp
  beyond i hi := by
    rw [sendCommand_txbuf, buildBuffer_read, if_neg (by omega), if_neg (by omega), if_neg (by omega)]
  level := sendCommand_level d o v s
  params := by simp
  dir := by simp
  seq := by simp
  micro := by simp
  port := by simp
  draws := by simp

/-- The chain one command leaves and the latch it ends with. -/
theorem sendCommand_rx {d : Nat} {s : State} (hd : d < s.devices) :
    (sendCommand d o v s).rx = latchEdge s.params.wired
      { s.rx with
        chain := chainAfter s.params.wired s.level.clk
          ((frameBytes s.devices d o v).flatMap bitsMsbFirst) s.rx.chain } := by
  rw [sendCommand_unfold, transmitChain_eq]
  simp only [setTxbuf_params, setTxbuf_txbuf, setTxbuf_devices, setTxbuf_rx, setTxbuf_level,
    buildBuffer_wire o v hd]

/-- No word is left waiting after one command: the latch edge runs them all. -/
theorem sendCommand_latched {d : Nat} {s : State} (hd : d < s.devices) :
    (sendCommand d o v s).rx.latched = [] := by
  rw [sendCommand_rx _ _ hd, latchEdge_latched]

theorem chainAfter_length (wired : Nat) (clk : Bool) (bs chain : List Bool)
    (h : chain.length = 16 * wired) : (chainAfter wired clk bs chain).length = 16 * wired :=
  shiftAll_length _ _ _ h

theorem sendCommand_chain_length {d : Nat} {s : State} (hd : d < s.devices)
    (h : s.rx.chain.length = 16 * s.params.wired) :
    (sendCommand d o v s).rx.chain.length = 16 * s.params.wired := by
  rw [sendCommand_rx _ _ hd, latchEdge_chain]
  exact chainAfter_length _ _ _ _ h

/-- The word chip `e` holds when one command's frame is latched, CLK low before it (R61). -/
theorem sendCommand_chipWord {d e : Nat} {s : State} (hd : d < s.devices) (he : Wired s e)
    (hclk : s.level.clk = false) (hc : s.rx.chain.length = 16 * s.params.wired) :
    chipWord (chainAfter s.params.wired s.level.clk
      ((frameBytes s.devices d o v).flatMap bitsMsbFirst) s.rx.chain) e =
      if e = d then wireWord v o else wireWord 0 0 := by
  rw [← buildBuffer_wire o v hd, hclk]
  unfold chainAfter
  rw [if_neg (by simp), chipWord_of_frame _ _ _ _ _ he.1 he.2 hc.le, buildBuffer_read,
    buildBuffer_read]
  have h1 := he.1
  have : 2 * e < 2 * s.devices := by omega
  have : 2 * e + 1 < 2 * s.devices := by omega
  by_cases h : e = d
  · subst h
    simp
  · have h1 : 2 * e ≠ 2 * d + 1 := by omega
    have h2 : 2 * e + 1 ≠ 2 * d := by omega
    have h3 : 2 * e + 1 ≠ 2 * d + 1 := by omega
    have h4 : 2 * e ≠ 2 * d := by omega
    simp [*]

/-- One command, whatever its opcode, changes no register of any wired device of the chain but the addressed one:
every other chip takes a no-op (R62, R145). -/
theorem sendCommand_others {d e : Nat} {s : State} (other : ChipReg) (hd : d < s.devices)
    (he : Wired s e) (hne : e ≠ d) (hclk : s.level.clk = false)
    (hc : s.rx.chain.length = 16 * s.params.wired) :
    chipReg (sendCommand d o v s) e other = chipReg s e other := by
  have hw := sendCommand_chipWord o v hd he hclk hc
  rw [if_neg hne] at hw
  unfold chipReg
  rw [sendCommand_rx _ _ hd]
  exact latchEdge_noop _ _ _ he.2 0 _ hw

/-- One command for a register changes that register of the addressed chip and no other register of any wired
device of the chain (R62, R145). -/
theorem sendCommand_chipReg {d e : Nat} {s : State} (reg other : ChipReg) (hd : d < s.devices)
    (he : Wired s e) (hclk : s.level.clk = false) (hc : s.rx.chain.length = 16 * s.params.wired) :
    chipReg (sendCommand d reg.opcode v s) e other =
      if e = d ∧ other = reg then v else chipReg s e other := by
  by_cases h : e = d
  · have hw := sendCommand_chipWord reg.opcode v hd he hclk hc
    rw [if_pos h] at hw
    unfold chipReg
    rw [sendCommand_rx _ _ hd, latchEdge_reg _ _ _ he.2 reg v _ hw]
    simp [h, opcode_inj]
  · rw [sendCommand_others _ _ _ hd he h hclk hc]
    simp [h]

/-- A no-op command changes no register of any wired device of the chain. -/
theorem sendCommand_noop {d e : Nat} {s : State} (other : ChipReg) (hd : d < s.devices)
    (he : Wired s e) (hclk : s.level.clk = false) (hc : s.rx.chain.length = 16 * s.params.wired) :
    chipReg (sendCommand d Config.opNoop v s) e other = chipReg s e other := by
  by_cases h : e = d
  · have hw := sendCommand_chipWord Config.opNoop v hd he hclk hc
    rw [if_pos h] at hw
    unfold chipReg
    rw [sendCommand_rx _ _ hd]
    exact latchEdge_noop _ _ _ he.2 v _ hw
  · exact sendCommand_others _ _ _ hd he h hclk hc

end Send

/-- `write_command` on a valid device is one command sent (R143). -/
theorem writeCommand_valid {device : Int} {s : State} (h : validDevice s.devices device = true)
    (o v : Byte) : writeCommand device o v s = (sendCommand device.toNat o v s, .ok) := by
  simp [writeCommand, deviceCheck, h, checked_pass, checked_nil, returnOk]

/-- `write_command` on an invalid device is dropped (R143, R232). -/
theorem writeCommand_invalid {device : Int} {s : State} (h : validDevice s.devices device = false)
    (o v : Byte) : writeCommand device o v s = (s, .invalidIndex) := by
  simp [writeCommand, deviceCheck, h, checked_fail]

end Sys2Proof.Machine
end

