-- ==== Sys2Proof/Laws/Operations.lean ====
section
/-!
SUPPORT. What the body of each host operation does on valid operands, and that it is dropped on others, each
said once in terms of `sendCommand`.
-/

namespace Sys2Proof.Machine

open Sys2Proof.Safety

@[simp] theorem writeShadow_devices (d r : Nat) (v : Byte) (s : State) :
    (writeShadow d r v s).devices = s.devices := rfl

theorem shadowKey_inj {d e r q : Nat} (hr : r < 8) (hq : q < 8) :
    shadowKey d r = shadowKey e q ↔ d = e ∧ r = q := by
  unfold shadowKey; omega

section Bodies

variable {device : Int} {s : State}

theorem writeCommand_fst (h : validDevice s.devices device = true) (o v : Byte) :
    (writeCommand device o v s).1 = sendCommand device.toNat o v s := by
  rw [writeCommand_valid h]

theorem setDecodeMode_valid (h : validDevice s.devices device = true) (mode : Int) :
    setDecodeMode device mode s =
      (sendCommand device.toNat Config.opDecodeMode (trunc8 mode) s, .ok) := by
  simp [setDecodeMode, deviceCheck, h, checked_pass, checked_nil, returnOk, writeCommand_valid]

theorem setIntensity_valid (h : validDevice s.devices device = true) {level : Int}
    (hl : inRange 15 level = true) :
    setIntensity device level s =
      (sendCommand device.toNat Config.opIntensity (trunc8 level) s, .ok) := by
  simp [setIntensity, deviceCheck, valueCheck, h, hl, checked_pass, checked_nil, returnOk,
    writeCommand_valid]

theorem setScanLimit_valid (h : validDevice s.devices device = true) {limit : Int}
    (hl : inRange 7 limit = true) :
    setScanLimit device limit s =
      (sendCommand device.toNat Config.opScanLimit (trunc8 limit) s, .ok) := by
  simp [setScanLimit, deviceCheck, valueCheck, h, hl, checked_pass, checked_nil, returnOk,
    writeCommand_valid]

theorem shutdownDevice_valid (h : validDevice s.devices device = true) (enabled : Bool) :
    shutdownDevice device enabled s =
      (sendCommand device.toNat Config.opShutdown (shutdownData enabled) s, .ok) := by
  simp [shutdownDevice, deviceCheck, h, checked_pass, checked_nil, returnOk, writeCommand_valid]

theorem displayTest_valid (h : validDevice s.devices device = true) (enabled : Bool) :
    displayTest device enabled s =
      (sendCommand device.toNat Config.opDisplayTest (zext8 enabled) s, .ok) := by
  simp [displayTest, deviceCheck, h, checked_pass, checked_nil, returnOk, writeCommand_valid]

/-- SET_LED on valid operands: one shadow byte, then one command with it (R190). -/
theorem setLed_valid (h : validDevice s.devices device = true) {row column : Int}
    (hr : inRange 7 row = true) (hc : inRange 7 column = true) (state : Bool) :
    setLed device row column state s =
      (sendCommand device.toNat (Config.opDigit row.toNat)
        (switchLed (shadowAt s device.toNat row.toNat) column.toNat state)
        (writeShadow device.toNat row.toNat
          (switchLed (shadowAt s device.toNat row.toNat) column.toNat state) s), .ok) := by
  have hw : ∀ v, validDevice (writeShadow device.toNat row.toNat v s).devices device = true :=
    fun _ => h
  simp only [setLed, deviceCheck, valueCheck, h, hr, hc, checked_pass, checked_nil, returnOk,
    switchAndSend]
  rw [writeCommand_fst (hw _)]
  simp [shadowAt, writeShadow]

/-- One row of CLEAR_DISPLAY: the shadow byte, then one command (R160). -/
theorem clearRow_valid (h : validDevice s.devices device = true) (r : Nat) :
    clearRow device s r =
      sendCommand device.toNat (Config.opDigit r) 0 (writeShadow device.toNat r 0 s) :=
  writeCommand_fst (s := writeShadow device.toNat r 0 s) h _ _

theorem clearDevice_valid (h : validDevice s.devices device = true) :
    clearDevice device s = (rowList.foldl (clearRow device) s, .ok) := by
  simp [clearDevice, deviceCheck, h, checked_pass, checked_nil, returnOk]

/-- An operation on a device outside the chain is dropped with INVALID_INDEX (R232). -/
theorem deviceCheck_fails (h : validDevice s.devices device = false)
    (rest : List (Bool × Result)) (body : State → State × Result) :
    checked (deviceCheck s device :: rest) body s = (s, .invalidIndex) := by
  simp [deviceCheck, h, checked_fail]

/-- A bad value on a valid device is dropped with INVALID_VALUE (R233 to R235). -/
theorem valueCheck_fails (h : validDevice s.devices device = true) {hi z : Int}
    (hz : inRange hi z = false) (rest : List (Bool × Result)) (body : State → State × Result) :
    checked (deviceCheck s device :: valueCheck hi z :: rest) body s = (s, .invalidValue) := by
  simp [deviceCheck, valueCheck, h, hz, checked_fail, checked_pass]

end Bodies

/-- What rows cleared one after the other leave, by the list of rows: the shadow, the events, the levels and
that nothing else of the block changes. -/
structure Cleared (device : Int) (rows : List Nat) (s t : State) : Prop where
  shadow : ∀ a, t.shadow.read a =
    if ∃ r ∈ rows, a = shadowKey device.toNat r then 0 else s.shadow.read a
  trace : t.trace = s.trace ++
    rows.flatMap (fun r => commandEvents s.devices device.toNat (Config.opDigit r) 0)
  beyond : ∀ i, 2 * s.devices ≤ i → t.txbuf.read i = s.txbuf.read i
  params : t.params = s.params
  dir : t.dir = s.dir
  seq : t.seq = s.seq
  micro : t.micro = s.micro
  port : t.port = s.port
  draws : t.draws = s.draws
  results : t.results = s.results

theorem clearRows_cleared {device : Int} (rows : List Nat) (s : State)
    (h : validDevice s.devices device = true) :
    Cleared device rows s (rows.foldl (clearRow device) s) := by
  induction rows generalizing s with
  | nil => exact ⟨by simp, by simp, fun _ _ => rfl, rfl, rfl, rfl, rfl, rfl, rfl, rfl⟩
  | cons r rows ih =>
    have hd := validDevice_toNat h
    have hdev : (clearRow device s r).devices = s.devices := by
      rw [clearRow_valid h]; simp
    have hs := ih (clearRow device s r) (by rw [hdev]; exact h)
    have hsent : SentFrame device.toNat (Config.opDigit r) 0 (writeShadow device.toNat r 0 s)
        (clearRow device s r) := by
      rw [clearRow_valid h]; exact sendCommand_sentFrame _ _ hd
    have hshadow : (clearRow device s r).shadow = s.shadow.write (shadowKey device.toNat r) 0 := by
      rw [clearRow_valid h]; simp [writeShadow]
    refine ⟨fun a => ?_, ?_, fun i hi => ?_, ?_, ?_, ?_, ?_, ?_, ?_, ?_⟩
    · rw [List.foldl_cons, hs.shadow, hshadow, Memory.read_write]
      by_cases h1 : a = shadowKey device.toNat r
      · simp [h1]
      · simp [h1]
    · rw [List.foldl_cons, hs.trace, hsent.trace, hdev]
      simp [writeShadow, List.append_assoc]
    · rw [List.foldl_cons, hs.beyond i (by rw [hdev]; exact hi), hsent.beyond i hi]; rfl
    · rw [List.foldl_cons, hs.params, hsent.params]; rfl
    · rw [List.foldl_cons, hs.dir, hsent.dir]; rfl
    · rw [List.foldl_cons, hs.seq, hsent.seq]; rfl
    · rw [List.foldl_cons, hs.micro, hsent.micro]; rfl
    · rw [List.foldl_cons, hs.port, hsent.port]; rfl
    · rw [List.foldl_cons, hs.draws, hsent.draws]; rfl
    · rw [List.foldl_cons, hs.results, clearRow_valid h]; simp [writeShadow]

/-- The last row cleared is one command whose buffer and levels remain (R160). -/
theorem clearRows_last {device : Int} (rows : List Nat) (r : Nat) (s : State)
    (h : validDevice s.devices device = true) :
    ∃ m : State, m.devices = s.devices ∧ (∀ i, 2 * s.devices ≤ i → m.txbuf.read i = s.txbuf.read i) ∧
      SentFrame device.toNat (Config.opDigit r) 0 m ((rows ++ [r]).foldl (clearRow device) s) := by
  have hc := clearRows_cleared rows s h
  have hdev : (rows.foldl (clearRow device) s).devices = s.devices := by
    unfold State.devices; rw [hc.params]
  refine ⟨writeShadow device.toNat r 0 (rows.foldl (clearRow device) s), hdev, hc.beyond, ?_⟩
  rw [List.foldl_append, List.foldl_cons, List.foldl_nil, clearRow_valid (by rw [hdev]; exact h)]
  exact sendCommand_sentFrame _ _ (by rw [writeShadow_devices, hdev]; exact validDevice_toNat h)

end Sys2Proof.Machine
end

