-- ==== Sys2Proof/Laws/Acts.lean ====
section
/-!
SUPPORT. What a host operation does, said once: the body of every operation is a list of acts (a command sent,
a shadow byte stored, a move of the sequencer, a delay), and what a list of acts does follows by induction.
-/

namespace Sys2Proof.Machine

open Sys2Proof.Safety

/-- One act of the block. -/
inductive Act where
  | cmd (d : Nat) (opcode value : Byte)
  | store (d r : Nat) (v : Byte)
  | goto (q : Seq)
  | wait (n : Nat)

/-- What an act does. -/
def Act.run : Act → State → State
  | .cmd d o v, s => sendCommand d o v s
  | .store d r v, s => writeShadow d r v s
  | .goto q, s => gotoSeq q s
  | .wait n, s => delayMs n s

/-- The events of an act on a chain of `n`. -/
def Act.events (n : Nat) : Act → List Event
  | .cmd d o v => commandEvents n d o v
  | .store _ _ _ => []
  | .goto _ => []
  | .wait ms => [.delay ms]

/-- The act is about a device of a chain of `n`. -/
def Act.Ok (n : Nat) : Act → Prop
  | .cmd d _ _ => d < n
  | .store d r _ => d < n ∧ r < 8
  | .goto _ => True
  | .wait _ => True

/-- Acts one after the other. -/
def runActs (l : List Act) (s : State) : State := l.foldl (fun t a => a.run t) s

@[simp] theorem runActs_nil (s : State) : runActs [] s = s := rfl

theorem runActs_cons (a : Act) (l : List Act) (s : State) :
    runActs (a :: l) s = runActs l (a.run s) := rfl

theorem runActs_append (l k : List Act) (s : State) :
    runActs (l ++ k) s = runActs k (runActs l s) := by simp [runActs, List.foldl_append]

section Fields

variable (a : Act) (s : State)

@[simp] theorem Act.run_params : (a.run s).params = s.params := by cases a <;> simp [Act.run] <;> rfl
@[simp] theorem Act.run_devices : (a.run s).devices = s.devices := by unfold State.devices; simp
@[simp] theorem Act.run_dir : (a.run s).dir = s.dir := by cases a <;> simp [Act.run] <;> rfl
@[simp] theorem Act.run_micro : (a.run s).micro = s.micro := by cases a <;> simp [Act.run] <;> rfl
@[simp] theorem Act.run_port : (a.run s).port = s.port := by cases a <;> simp [Act.run] <;> rfl
@[simp] theorem Act.run_results : (a.run s).results = s.results := by
  cases a <;> simp [Act.run] <;> rfl
@[simp] theorem Act.run_draws : (a.run s).draws = s.draws := by cases a <;> simp [Act.run] <;> rfl

theorem Act.run_trace {a : Act} {s : State} (h : a.Ok s.devices) :
    (a.run s).trace = s.trace ++ a.events s.devices := by
  cases a with
  | cmd d o v => exact sendCommand_trace o v h
  | store d r v => simp [Act.run, writeShadow, Act.events]
  | goto q => simp [Act.run, gotoSeq, Act.events]
  | wait n => rfl

/-- The shadow after an act. -/
def Act.shadowAfter (m : Memory) : Act → Memory
  | .cmd _ _ _ => m
  | .store d r v => m.write (shadowKey d r) v
  | .goto _ => m
  | .wait _ => m

theorem Act.run_shadow : (a.run s).shadow = a.shadowAfter s.shadow := by
  cases a <;> simp [Act.run, Act.shadowAfter] <;> rfl

theorem Act.run_beyond {a : Act} {s : State} (h : a.Ok s.devices) {i : Nat} (hi : 2 * s.devices ≤ i) :
    (a.run s).txbuf.read i = s.txbuf.read i := by
  cases a with
  | cmd d o v => exact (sendCommand_sentFrame o v h).beyond i hi
  | store d r v => rfl
  | goto q => rfl
  | wait n => rfl

/-- The sequencer after an act. -/
def Act.seqAfter (q : Seq) : Act → Seq
  | .cmd _ _ _ => q
  | .store _ _ _ => q
  | .goto q' => q'
  | .wait _ => q

theorem Act.run_seq : (a.run s).seq = a.seqAfter s.seq := by
  cases a <;> simp [Act.run, Act.seqAfter] <;> rfl

/-- The level of CLK after an act is low, if it was or if a command was sent. -/
theorem Act.run_clk {a : Act} {s : State} (h : s.level.clk = false) : (a.run s).level.clk = false := by
  cases a with
  | cmd d o v => simp [Act.run, sendCommand_level]
  | store d r v => exact h
  | goto q => exact h
  | wait n => exact h

theorem Act.run_load {a : Act} {s : State} (h : s.level.load = true) : (a.run s).level.load = true := by
  cases a with
  | cmd d o v => simp [Act.run, sendCommand_level]
  | store d r v => exact h
  | goto q => exact h
  | wait n => exact h

theorem Act.run_chain {a : Act} {s : State} (ha : a.Ok s.devices)
    (h : s.rx.chain.length = 16 * s.params.wired) :
    (a.run s).rx.chain.length = 16 * s.params.wired := by
  cases a with
  | cmd d o v => exact sendCommand_chain_length o v ha h
  | store d r v => exact h
  | goto q => exact h
  | wait n => exact h

theorem Act.run_latched {a : Act} {s : State} (ha : a.Ok s.devices) (h : s.rx.latched = []) :
    (a.run s).rx.latched = [] := by
  cases a with
  | cmd d o v => exact sendCommand_latched o v ha
  | store d r v => exact h
  | goto q => exact h
  | wait n => exact h

end Fields

/-- The canonical forms and bounds of the byte arrays, and the receiver's form. -/
structure Shaped (s : State) : Prop where
  shadowWf : s.shadow.wf
  shadowBelow : s.shadow.below (8 * s.devices)
  txbufWf : s.txbuf.wf
  txbufBelow : s.txbuf.below (2 * s.devices)
  regsWf : s.rx.regs.wf
  regsBelow : s.rx.regs.below (256 * s.params.wired)
  chain : s.rx.chain.length = 16 * s.params.wired
  latched : ∀ dw ∈ s.rx.latched, dw.1 < s.params.wired

theorem Shaped.onPinWrite {s : State} (h : Shaped s) (p : Pin) (l : Bool) : Shaped (pin p l s) := by
  have hrx : (pin p l s).rx.regs.wf ∧ (pin p l s).rx.regs.below (256 * s.params.wired) ∧
      (pin p l s).rx.chain.length = 16 * s.params.wired ∧
      ∀ dw ∈ (pin p l s).rx.latched, dw.1 < s.params.wired := by
    rw [pin_rx]
    cases p with
    | data => exact ⟨h.regsWf, h.regsBelow, h.chain, h.latched⟩
    | clk =>
      simp only [Machine.onPinWrite]
      split
      · exact ⟨h.regsWf, h.regsBelow, by simp [shiftEdge, h.chain], h.latched⟩
      · exact ⟨h.regsWf, h.regsBelow, h.chain, h.latched⟩
    | load =>
      simp only [Machine.onPinWrite]
      split
      · exact ⟨latchEdge_wf _ _ h.regsWf, latchEdge_below _ _ h.regsBelow, by simp [h.chain], by simp⟩
      · exact ⟨h.regsWf, h.regsBelow, h.chain, h.latched⟩
  exact ⟨h.shadowWf, h.shadowBelow, h.txbufWf, h.txbufBelow, hrx.1, hrx.2.1, hrx.2.2.1, hrx.2.2.2⟩

theorem Shaped.sendCommand {s : State} (h : Shaped s) {d : Nat} (hd : d < s.devices) (o v : Byte) :
    Shaped (sendCommand d o v s) := by
  have hrx := sendCommand_rx o v hd
  have hb : (buildBuffer d o v s).txbuf.wf ∧ (buildBuffer d o v s).txbuf.below (2 * s.devices) := by
    refine ⟨Memory.write_wf (Memory.write_wf (clearTxbuf_wf _ h.txbufWf) _ _) _ _,
      Memory.write_below (Memory.write_below (clearTxbuf_below (Nat.le_refl _) h.txbufBelow) ?_ _) ?_ _⟩
    · unfold dataIndex; omega
    · unfold opcodeIndex; omega
  refine ⟨by simpa using h.shadowWf, by simpa using h.shadowBelow, by simpa using hb.1,
    by simpa using hb.2, ?_, ?_, ?_, ?_⟩
  · rw [hrx]; exact latchEdge_wf _ _ h.regsWf
  · rw [hrx, sendCommand_params]; exact latchEdge_below _ _ h.regsBelow
  · rw [sendCommand_params]; exact sendCommand_chain_length o v hd h.chain
  · rw [hrx]; simp

theorem Shaped.run {s : State} (h : Shaped s) {a : Act} (ha : a.Ok s.devices) : Shaped (a.run s) := by
  cases a with
  | cmd d o v => exact h.sendCommand ha o v
  | store d r v =>
    refine ⟨Memory.write_wf h.shadowWf _ _, Memory.write_below h.shadowBelow ?_ _, h.txbufWf,
      h.txbufBelow, h.regsWf, h.regsBelow, h.chain, h.latched⟩
    have := ha.1
    have := ha.2
    unfold shadowKey; omega
  | goto q => exact ⟨h.1, h.2, h.3, h.4, h.5, h.6, h.7, h.8⟩
  | wait n => exact ⟨h.1, h.2, h.3, h.4, h.5, h.6, h.7, h.8⟩

/-- What a list of acts does to the block. -/
structure Ran (l : List Act) (s t : State) : Prop where
  params : t.params = s.params
  dir : t.dir = s.dir
  micro : t.micro = s.micro
  port : t.port = s.port
  results : t.results = s.results
  draws : t.draws = s.draws
  trace : t.trace = s.trace ++ l.flatMap (Act.events s.devices)
  shadow : t.shadow = l.foldl Act.shadowAfter s.shadow
  beyond : ∀ i, 2 * s.devices ≤ i → t.txbuf.read i = s.txbuf.read i
  seq : t.seq = l.foldl Act.seqAfter s.seq
  clk : s.level.clk = false → t.level.clk = false
  load : s.level.load = true → t.level.load = true
  chain : s.rx.chain.length = 16 * s.params.wired → t.rx.chain.length = 16 * s.params.wired
  latched : s.rx.latched = [] → t.rx.latched = []
  shaped : Shaped s → Shaped t

theorem runActs_ran (l : List Act) (s : State) (h : ∀ a ∈ l, a.Ok s.devices) :
    Ran l s (runActs l s) := by
  induction l generalizing s with
  | nil => exact ⟨rfl, rfl, rfl, rfl, rfl, rfl, by simp, rfl, fun _ _ => rfl, rfl, id, id, id, id, id⟩
  | cons a l ih =>
    have ha := h a (by simp)
    have hi := ih (a.run s) (by simpa using fun b hb => h b (by simp [hb]))
    rw [runActs_cons]
    refine ⟨by simp [hi.params], by simp [hi.dir], by simp [hi.micro], by simp [hi.port],
      by simp [hi.results], by simp [hi.draws], ?_, ?_, ?_, ?_, fun h => hi.clk (Act.run_clk h),
      fun h => hi.load (Act.run_load h), fun h => ?_,
      fun h => hi.latched (Act.run_latched ha h), fun h => hi.shaped (h.run ha)⟩
    · rw [hi.trace, Act.run_trace ha]; simp
    · rw [hi.shadow, Act.run_shadow]; rfl
    · intro i hb; rw [hi.beyond i (by simpa using hb), Act.run_beyond ha hb]
    · rw [hi.seq, Act.run_seq]; rfl
    · simpa using hi.chain (by simpa using Act.run_chain ha h)

theorem runActs_devices (l : List Act) (s : State) : (runActs l s).devices = s.devices := by
  induction l generalizing s with
  | nil => rfl
  | cons a l ih => rw [runActs_cons, ih]; simp

/-- The value an act sends to a register of chip `e`. -/
def Act.writes (e : Nat) (reg : ChipReg) : Act → Option Byte
  | .cmd d o v => if d = e ∧ o = reg.opcode then some v else none
  | .store _ _ _ => none
  | .goto _ => none
  | .wait _ => none

/-- The last value a list of acts sends to a register of chip `e`. -/
def lastWrite (e : Nat) (reg : ChipReg) : List Act → Option Byte
  | [] => none
  | a :: l => (lastWrite e reg l).or (a.writes e reg)

theorem lastWrite_append (e : Nat) (reg : ChipReg) (l k : List Act) :
    lastWrite e reg (l ++ k) = (lastWrite e reg k).or (lastWrite e reg l) := by
  induction l with
  | nil => simp [lastWrite]
  | cons a l ih => simp [lastWrite, ih, Option.or_assoc]

/-- The act is no command, or its command names a register or is a no-op. -/
def Act.Named : Act → Prop
  | .cmd _ o _ => o = Config.opNoop ∨ ∃ reg : ChipReg, o = reg.opcode
  | .store _ _ _ => True
  | .goto _ => True
  | .wait _ => True

theorem opNoop_ne (reg : ChipReg) : Config.opNoop ≠ reg.opcode := by cases reg <;> decide

/-- The registers of the chips after one act that begins with CLK low. -/
theorem Act.run_chipReg {a : Act} {s : State} (ha : a.Ok s.devices) (hn : a.Named)
    (hclk : s.level.clk = false) (hc : s.rx.chain.length = 16 * s.params.wired) {e : Nat}
    (he : Wired s e) (reg : ChipReg) :
    chipReg (a.run s) e reg = (a.writes e reg).getD (chipReg s e reg) := by
  cases a with
  | cmd d o v =>
    rcases hn with rfl | ⟨r, rfl⟩
    · refine (sendCommand_noop v reg ha he hclk hc).trans ?_
      simp [Act.writes, opNoop_ne]
    · refine (sendCommand_chipReg v r reg ha he hclk hc).trans ?_
      simp only [Act.writes, opcode_inj, eq_comm (a := d), eq_comm (a := r)]
      split <;> rfl
  | store d r v => rfl
  | goto q => rfl
  | wait n => rfl

/-- The registers of the chips after a list of acts that begins with CLK low. -/
theorem runActs_chipReg (l : List Act) (s : State) (h : ∀ a ∈ l, a.Ok s.devices)
    (hn : ∀ a ∈ l, a.Named) (hclk : s.level.clk = false)
    (hc : s.rx.chain.length = 16 * s.params.wired) {e : Nat} (he : Wired s e) (reg : ChipReg) :
    chipReg (runActs l s) e reg = (lastWrite e reg l).getD (chipReg s e reg) := by
  induction l generalizing s with
  | nil => rfl
  | cons a l ih =>
    have ha := h a (by simp)
    rw [runActs_cons, ih (a.run s) (by simpa using fun b hb => h b (by simp [hb]))
      (fun b hb => hn b (by simp [hb])) (Act.run_clk hclk)
      (by simpa using Act.run_chain ha hc) ⟨by simpa using he.1, by simpa using he.2⟩,
      Act.run_chipReg ha (hn a (by simp)) hclk hc he]
    cases hl : lastWrite e reg l <;> simp [lastWrite, hl]

/-! ## The operations as acts -/

/-- The acts of CLEAR_DISPLAY (R160). -/
def clearActs (d : Nat) (rows : List Nat) : List Act :=
  rows.flatMap (fun r => [.store d r 0, .cmd d (Config.opDigit r) 0])

theorem clearRows_acts {device : Int} (rows : List Nat) (s : State)
    (h : validDevice s.devices device = true) :
    rows.foldl (clearRow device) s = runActs (clearActs device.toNat rows) s := by
  induction rows generalizing s with
  | nil => rfl
  | cons r rows ih =>
    have hr : clearRow device s r =
        runActs [.store device.toNat r 0, .cmd device.toNat (Config.opDigit r) 0] s :=
      clearRow_valid h r
    rw [List.foldl_cons, hr, ih _ (by rw [runActs_devices]; exact h), ← runActs_append]
    rfl

theorem clearActs_ok {d n : Nat} (hd : d < n) (rows : List Nat) (hr : ∀ r ∈ rows, r < 8) :
    ∀ a ∈ clearActs d rows, a.Ok n := by
  intro a ha
  simp only [clearActs, List.mem_flatMap, List.mem_cons, List.not_mem_nil, or_false] at ha
  obtain ⟨r, hm, rfl | rfl⟩ := ha
  · exact ⟨hd, hr r hm⟩
  · exact hd

theorem clearActs_quiet (d : Nat) (rows : List Nat) : ∀ a ∈ clearActs d rows, ∀ q, a ≠ .goto q := by
  intro a ha q
  simp only [clearActs, List.mem_flatMap, List.mem_cons, List.not_mem_nil, or_false] at ha
  obtain ⟨r, _, rfl | rfl⟩ := ha <;> simp

/-- The acts and the result of an operation on a chain of `n`: `go` with OK on a valid device, else
INVALID_INDEX (R232). -/
def onDevice (n : Nat) (device : Int) (go : List Act × Result) : List Act × Result :=
  if validDevice n device then go else ([], .invalidIndex)

/-- The acts and the result under one check of a value (R233 to R235). -/
def onValue (hi z : Int) (go : List Act × Result) : List Act × Result :=
  if inRange hi z then go else ([], .invalidValue)

/-- One command, result OK. -/
def oneCommand (device : Int) (o v : Byte) : List Act × Result := ([.cmd device.toNat o v], .ok)

/-- One shadow byte and the command with it, result OK (R190). -/
def oneRow (device row : Int) (v : Byte) : List Act × Result :=
  ([.store device.toNat row.toNat v, .cmd device.toNat (Config.opDigit row.toNat) v], .ok)

/-- What a host operation but INITIALIZE does: its acts and its result, by the number of devices and the
shadow alone. -/
def hostActs (n : Nat) (shadow : Memory) : Instr → List Act × Result
  | .hostClearDisplay device => onDevice n device (clearActs device.toNat rowList, .ok)
  | .hostDisplayTest device enabled =>
    onDevice n device (oneCommand device Config.opDisplayTest (zext8 enabled))
  | .hostSetDecodeMode device mode =>
    onDevice n device (oneCommand device Config.opDecodeMode (trunc8 mode))
  | .hostSetIntensity device level =>
    onDevice n device (onValue 15 level (oneCommand device Config.opIntensity (trunc8 level)))
  | .hostSetLed device row column state =>
    onDevice n device (onValue 7 row (onValue 7 column (oneRow device row
      (switchLed (shadow.read (shadowKey device.toNat row.toNat)) column.toNat state))))
  | .hostSetScanLimit device limit =>
    onDevice n device (onValue 7 limit (oneCommand device Config.opScanLimit (trunc8 limit)))
  | .hostShutdown device enabled =>
    onDevice n device (oneCommand device Config.opShutdown (shutdownData enabled))
  | .hostWriteCommand device opcode value =>
    onDevice n device (oneCommand device (trunc8 opcode) (trunc8 value))
  | _ => ([], .unimplemented)

/-- The body of an operation is its acts and its result. -/
def bodyOf (f : List Act × Result) (s : State) : State × Result := (runActs f.1 s, f.2)

theorem bodyOf_onDevice {s : State} {device : Int} {go : List Act × Result} {x : State × Result}
    (hv : validDevice s.devices device = true → x = bodyOf go s)
    (hn : validDevice s.devices device = false → x = (s, .invalidIndex)) :
    x = bodyOf (onDevice s.devices device go) s := by
  unfold onDevice
  split
  · next h => exact hv h
  · next h => exact hn (by simpa using h)

theorem bodyOf_onValue {s : State} {hi z : Int} {go : List Act × Result} {x : State × Result}
    (hv : inRange hi z = true → x = bodyOf go s) (hn : inRange hi z = false → x = (s, .invalidValue)) :
    x = bodyOf (onValue hi z go) s := by
  unfold onValue
  split
  · next h => exact hv h
  · next h => exact hn (by simpa using h)

section Host

variable (device : Int) (s : State)

theorem writeCommand_acts (o v : Byte) :
    writeCommand device o v s = bodyOf (onDevice s.devices device (oneCommand device o v)) s :=
  bodyOf_onDevice (fun h => writeCommand_valid h o v) (fun h => writeCommand_invalid h o v)

theorem setDecodeMode_acts (mode : Int) :
    setDecodeMode device mode s = bodyOf (onDevice s.devices device
      (oneCommand device Config.opDecodeMode (trunc8 mode))) s :=
  bodyOf_onDevice (fun h => setDecodeMode_valid h mode) (fun h => deviceCheck_fails h _ _)

theorem setIntensity_acts (level : Int) :
    setIntensity device level s = bodyOf (onDevice s.devices device (onValue 15 level
      (oneCommand device Config.opIntensity (trunc8 level)))) s :=
  bodyOf_onDevice
    (fun h => bodyOf_onValue (fun hl => setIntensity_valid h hl) (fun hl => valueCheck_fails h hl _ _))
    (fun h => deviceCheck_fails h _ _)

theorem setScanLimit_acts (limit : Int) :
    setScanLimit device limit s = bodyOf (onDevice s.devices device (onValue 7 limit
      (oneCommand device Config.opScanLimit (trunc8 limit)))) s :=
  bodyOf_onDevice
    (fun h => bodyOf_onValue (fun hl => setScanLimit_valid h hl) (fun hl => valueCheck_fails h hl _ _))
    (fun h => deviceCheck_fails h _ _)

theorem shutdownDevice_acts (enabled : Bool) :
    shutdownDevice device enabled s = bodyOf (onDevice s.devices device
      (oneCommand device Config.opShutdown (shutdownData enabled))) s :=
  bodyOf_onDevice (fun h => shutdownDevice_valid h enabled) (fun h => deviceCheck_fails h _ _)

theorem displayTest_acts (enabled : Bool) :
    displayTest device enabled s = bodyOf (onDevice s.devices device
      (oneCommand device Config.opDisplayTest (zext8 enabled))) s :=
  bodyOf_onDevice (fun h => displayTest_valid h enabled) (fun h => deviceCheck_fails h _ _)

theorem clearDevice_acts :
    clearDevice device s =
      bodyOf (onDevice s.devices device (clearActs device.toNat rowList, .ok)) s :=
  bodyOf_onDevice
    (fun h => by rw [clearDevice_valid h, clearRows_acts _ _ h]; rfl)
    (fun h => deviceCheck_fails h _ _)

theorem setLed_acts (row column : Int) (state : Bool) :
    setLed device row column state s = bodyOf (onDevice s.devices device (onValue 7 row
      (onValue 7 column (oneRow device row
        (switchLed (shadowAt s device.toNat row.toNat) column.toNat state))))) s :=
  bodyOf_onDevice
    (fun h => bodyOf_onValue
      (fun hr => bodyOf_onValue (fun hc => setLed_valid h hr hc state)
        (fun hc => by
          simp [setLed, deviceCheck, valueCheck, h, hr, hc, checked_fail, checked_pass]))
      (fun hr => valueCheck_fails h hr _ _))
    (fun h => deviceCheck_fails h _ _)

end Host

/-- What holds of no acts, of one command on a valid device, of one row on valid operands and of a whole
device cleared holds of the acts of every host operation. -/
theorem hostActs_cases {P : List Act → Prop} (n : Nat) (shadow : Memory) (i : Instr) (h0 : P [])
    (hc : ∀ d o v, d < n → P [.cmd d o v])
    (hr : ∀ d r v, d < n → r < 8 → P [.store d r v, .cmd d (Config.opDigit r) v])
    (hall : ∀ d, d < n → P (clearActs d rowList)) : P (hostActs n shadow i).1 := by
  have dev : ∀ device go, (validDevice n device = true → P go.1) → P (onDevice n device go).1 := by
    intro device go h
    unfold onDevice
    split
    · next hv => exact h hv
    · exact h0
  have val : ∀ hi z go, (inRange hi z = true → P go.1) → P (onValue hi z go).1 := by
    intro hi z go h
    unfold onValue
    split
    · next hv => exact h hv
    · exact h0
  cases i with
  | hostClearDisplay device => exact dev _ _ fun h => hall _ (validDevice_toNat h)
  | hostDisplayTest device enabled => exact dev _ _ fun h => hc _ _ _ (validDevice_toNat h)
  | hostSetDecodeMode device mode => exact dev _ _ fun h => hc _ _ _ (validDevice_toNat h)
  | hostSetIntensity device level =>
    exact dev _ _ fun h => val _ _ _ fun _ => hc _ _ _ (validDevice_toNat h)
  | hostSetLed device row column state =>
    refine dev _ _ fun h => val _ _ _ fun hrow => val _ _ _ fun _ => ?_
    exact hr _ _ _ (validDevice_toNat h) (by rw [inRange_iff] at hrow; omega)
  | hostSetScanLimit device limit =>
    exact dev _ _ fun h => val _ _ _ fun _ => hc _ _ _ (validDevice_toNat h)
  | hostShutdown device enabled => exact dev _ _ fun h => hc _ _ _ (validDevice_toNat h)
  | hostWriteCommand device opcode value => exact dev _ _ fun h => hc _ _ _ (validDevice_toNat h)
  | _ => exact h0

/-- The acts of a host operation are about devices of the chain. -/
theorem hostActs_ok (n : Nat) (shadow : Memory) (i : Instr) :
    ∀ a ∈ (hostActs n shadow i).1, a.Ok n := by
  refine hostActs_cases (P := fun l => ∀ a ∈ l, a.Ok n) n shadow i (by simp) ?_ ?_ ?_
  · intro d o v hd; simpa [Act.Ok] using hd
  · intro d r v hd hr; simp [Act.Ok, hd, hr]
  · intro d hd; exact clearActs_ok hd _ (by decide)

/-- No host operation but INITIALIZE moves the sequencer. -/
theorem hostActs_quiet (n : Nat) (shadow : Memory) (i : Instr) :
    ∀ a ∈ (hostActs n shadow i).1, ∀ q, a ≠ Act.goto q := by
  refine hostActs_cases (P := fun l => ∀ a ∈ l, ∀ q, a ≠ Act.goto q) n shadow i (by simp) ?_ ?_ ?_
  · intro d o v _; simp
  · intro d r v _ _; simp
  · intro d _; exact clearActs_quiet d _

/-- Acts without a move of the sequencer leave it. -/
theorem seqAfter_quiet {l : List Act} (h : ∀ a ∈ l, ∀ q, a ≠ Act.goto q) (q : Seq) :
    l.foldl Act.seqAfter q = q := by
  induction l generalizing q with
  | nil => rfl
  | cons a l ih =>
    have ha : Act.seqAfter q a = q := by
      cases a with
      | goto q' => exact absurd rfl (h (.goto q') (by simp) q')
      | cmd d o v => rfl
      | store d r v => rfl
      | wait n => rfl
    rw [List.foldl_cons, ha]
    exact ih (fun b hb => h b (by simp [hb])) q

end Sys2Proof.Machine
end

