-- ==== Sys2Proof/Laws/Init.lean ====
section
/-!
SUPPORT. INITIALIZE as a list of acts, and what every host operation can answer.
-/

namespace Sys2Proof.Machine

open Sys2Proof.Safety

/-- The acts of Configure(d) before its CLEAR_DISPLAY (R214). -/
def configureHead (d : Nat) : List Act :=
  [Act.goto (.configure d .disableTest), Act.cmd d Config.opDisplayTest 0,
   Act.goto (.configure d .setScanLimit), Act.cmd d Config.opScanLimit 7,
   Act.goto (.configure d .setDecodeMode), Act.cmd d Config.opDecodeMode 0,
   Act.goto (.configure d .clearDisplay)]

/-- The acts of Configure(d) after its CLEAR_DISPLAY (R214). -/
def configureTail (d : Nat) : List Act :=
  [Act.goto (.configure d .setIntensity), Act.cmd d Config.opIntensity 8,
   Act.goto (.configure d .exitShutdown), Act.cmd d Config.opShutdown 0]

/-- The acts of Configure(d) (R214). -/
def configureActs (d : Nat) : List Act := configureHead d ++ clearActs d rowList ++ configureTail d

/-- The act of ShutdownAll for one device (R213). -/
def shutdownActs (d : Nat) : List Act := [Act.cmd d Config.opShutdown 1]

/-- The acts of the self-test of device d (R218). -/
def selfTestActs (ms d : Nat) : List Act :=
  [Act.cmd d Config.opDisplayTest 1, Act.wait ms, Act.cmd d Config.opDisplayTest 0]

/-- The acts of ShutdownAll and of every Configure(d) (R213, R214). -/
def initHead (n : Nat) : List Act :=
  Act.goto .shutdownAll ::
    ((List.range n).flatMap shutdownActs ++ (List.range n).flatMap configureActs)

/-- The acts of INITIALIZE after LatchIdleHigh on a chain of `n` (R213 to R219). -/
def initActs (n ms : Nat) : List Act :=
  initHead n ++ (Act.goto .selfTestSweep ::
    ((List.range n).flatMap (selfTestActs ms) ++ [Act.goto .ready]))

theorem forDevices_acts (n : Nat) (ms : Nat) (body : Nat → State → State) (f : Nat → List Act) (k : Nat)
    (hk : k ≤ n)
    (hb : ∀ d t, d < n → t.devices = n → t.params.selfTestMs = ms → body d t = runActs (f d) t)
    (hp : ∀ d t, (runActs (f d) t).params = t.params) (s : State) (hs : s.devices = n)
    (hm : s.params.selfTestMs = ms) :
    forDevices k body s = runActs ((List.range k).flatMap f) s := by
  have key : ∀ j, j ≤ n → forDevices j body s = runActs ((List.range j).flatMap f) s ∧
      (runActs ((List.range j).flatMap f) s).params = s.params := by
    intro j
    induction j with
    | zero => intro _; exact ⟨rfl, rfl⟩
    | succ j ih =>
      intro hj
      obtain ⟨h1, h2⟩ := ih (by omega)
      have hstep : forDevices (j + 1) body s = body j (forDevices j body s) := by
        simp [forDevices, List.range_succ]
      rw [hstep, h1, hb j _ (by omega) (by rw [runActs_devices, hs]) (by rw [h2, hm]),
        List.range_succ, List.flatMap_append, runActs_append]
      simp [hp, h2]
  exact (key k hk).1

theorem runActs_params (l : List Act) (s : State) : (runActs l s).params = s.params := by
  induction l generalizing s with
  | nil => rfl
  | cons a l ih => rw [runActs_cons, ih]; simp

theorem shutdownData_true : shutdownData true = 1 := rfl
theorem shutdownData_false : shutdownData false = 0 := rfl
theorem zext8_true : zext8 true = 1 := rfl
theorem zext8_false : zext8 false = 0 := rfl
theorem trunc8_initScanLimit : trunc8 Config.initScanLimit = 7 := by decide
theorem trunc8_initDecodeMode : trunc8 Config.initDecodeMode = 0 := by decide
theorem trunc8_initIntensity : trunc8 Config.initIntensity = 8 := by decide

/-- A command sent is one act. -/
theorem cmd_acts (d : Nat) (o v : Byte) (r : Result) (t : State) :
    (sendCommand (d : Int).toNat o v t, r).1 = runActs [.cmd d o v] t := rfl

section Pieces

variable {d : Nat} {t : State}

theorem shutdown_acts (h : d < t.devices) (enabled : Bool) :
    (shutdownDevice d enabled t).1 = runActs [.cmd d Config.opShutdown (shutdownData enabled)] t := by
  rw [shutdownDevice_valid (validDevice_natCast.2 h), cmd_acts]

theorem displayTest_runs (h : d < t.devices) (enabled : Bool) :
    (displayTest d enabled t).1 = runActs [.cmd d Config.opDisplayTest (zext8 enabled)] t := by
  rw [displayTest_valid (validDevice_natCast.2 h), cmd_acts]

theorem configStep_acts (sub : ConfigStep) (call : State → State × Result) (l : List Act)
    (h : (call (gotoSeq (.configure d sub) t)).1 = runActs l (gotoSeq (.configure d sub) t)) :
    configStep d sub call t = runActs (.goto (.configure d sub) :: l) t := h

theorem configureDevice_acts (h : d < t.devices) : configureDevice d t = runActs (configureActs d) t := by
  have dv : ∀ (q : Seq) (u : State), u.devices = t.devices → d < (gotoSeq q u).devices :=
    fun q u hu => by rw [show (gotoSeq q u).devices = u.devices from rfl, hu]; exact h
  have vd : ∀ (q : Seq) (u : State), u.devices = t.devices →
      validDevice (gotoSeq q u).devices (d : Int) = true :=
    fun q u hu => validDevice_natCast.2 (dv q u hu)
  have e1 := configStep_acts (d := d) (t := t) .disableTest (displayTest d false) _
    (displayTest_runs (dv _ _ rfl) false)
  rw [zext8_false] at e1
  have e2 : ∀ u : State, u.devices = t.devices → configStep d .setScanLimit
      (setScanLimit d Config.initScanLimit) u =
      runActs [.goto (.configure d .setScanLimit), .cmd d Config.opScanLimit 7] u := fun u hu =>
    configStep_acts _ _ [.cmd d Config.opScanLimit 7]
      (by rw [setScanLimit_valid (vd _ u hu) (by decide), cmd_acts, trunc8_initScanLimit])
  have e3 : ∀ u : State, u.devices = t.devices → configStep d .setDecodeMode
      (setDecodeMode d Config.initDecodeMode) u =
      runActs [.goto (.configure d .setDecodeMode), .cmd d Config.opDecodeMode 0] u := fun u hu =>
    configStep_acts _ _ [.cmd d Config.opDecodeMode 0]
      (by rw [setDecodeMode_valid (vd _ u hu), cmd_acts, trunc8_initDecodeMode])
  have e4 : ∀ u : State, u.devices = t.devices → configStep d .clearDisplay (clearDevice d) u =
      runActs (.goto (.configure d .clearDisplay) :: clearActs d rowList) u := fun u hu =>
    configStep_acts _ _ (clearActs d rowList)
      (by rw [clearDevice_valid (vd _ u hu), clearRows_acts _ _ (vd _ u hu), Int.toNat_natCast])
  have e5 : ∀ u : State, u.devices = t.devices → configStep d .setIntensity
      (setIntensity d Config.initIntensity) u =
      runActs [.goto (.configure d .setIntensity), .cmd d Config.opIntensity 8] u := fun u hu =>
    configStep_acts _ _ [.cmd d Config.opIntensity 8]
      (by rw [setIntensity_valid (vd _ u hu) (by decide), cmd_acts, trunc8_initIntensity])
  have e6 : ∀ u : State, u.devices = t.devices → configStep d .exitShutdown (shutdownDevice d false) u =
      runActs [.goto (.configure d .exitShutdown), .cmd d Config.opShutdown 0] u := fun u hu =>
    configStep_acts _ _ [.cmd d Config.opShutdown 0]
      (by rw [shutdown_acts (dv _ u hu), shutdownData_false])
  unfold configureDevice
  rw [e1, e2 _ (runActs_devices ..), ← runActs_append, e3 _ (runActs_devices ..), ← runActs_append,
    e4 _ (runActs_devices ..), ← runActs_append, e5 _ (runActs_devices ..), ← runActs_append,
    e6 _ (runActs_devices ..), ← runActs_append]
  rfl

theorem selfTestDevice_acts (h : d < t.devices) :
    selfTestDevice d t = runActs (selfTestActs t.params.selfTestMs d) t := by
  unfold selfTestDevice
  have h2 : ∀ u : State, u.devices = t.devices → (displayTest d false u).1 =
      runActs [.cmd d Config.opDisplayTest 0] u := fun u hu => by
    rw [displayTest_runs (by rw [hu]; exact h), zext8_false]
  rw [displayTest_runs h true, zext8_true,
    show ∀ (n : Nat) (u : State), delayMs n u = runActs [.wait n] u from fun _ _ => rfl,
    ← runActs_append, h2 _ (runActs_devices _ _), ← runActs_append]
  rfl

end Pieces

/-- The state in which the first frame of INITIALIZE begins (R211, R212). -/
def initGround (s : State) : State := initLatchIdleHigh (initPinSetup s)

section Dir

variable (p : Pin) (s : State)

@[simp] theorem dirOut_params : (dirOut p s).params = s.params := by simp [dirOut, recordEvent]
@[simp] theorem dirOut_shadow : (dirOut p s).shadow = s.shadow := by simp [dirOut, recordEvent]
@[simp] theorem dirOut_txbuf : (dirOut p s).txbuf = s.txbuf := by simp [dirOut, recordEvent]
@[simp] theorem dirOut_level :
    (dirOut p s).level = s.level.put p (Config.pinLevel s.draws) := by simp [dirOut, recordEvent]
@[simp] theorem dirOut_dir : (dirOut p s).dir = s.dir.put p .out := by simp [dirOut, recordEvent]
@[simp] theorem dirOut_seq : (dirOut p s).seq = s.seq := by simp [dirOut, recordEvent]
@[simp] theorem dirOut_micro : (dirOut p s).micro = s.micro := by simp [dirOut, recordEvent]
@[simp] theorem dirOut_rx : (dirOut p s).rx = s.rx := by simp [dirOut, recordEvent]
@[simp] theorem dirOut_port : (dirOut p s).port = s.port := by simp [dirOut, recordEvent]
@[simp] theorem dirOut_trace : (dirOut p s).trace = s.trace ++ [.dirOut p] := by simp [dirOut, recordEvent]
@[simp] theorem dirOut_results : (dirOut p s).results = s.results := by simp [dirOut, recordEvent]
@[simp] theorem dirOut_draws : (dirOut p s).draws = s.draws + 1 := by simp [dirOut, recordEvent]

/-- The three pins made outputs: what the block holds after PinSetup (R211). -/
theorem initGround_eq : initGround s = pin .load true
    (gotoSeq .latchIdleHigh (dirOut .load (dirOut .clk (dirOut .data (gotoSeq .pinSetup s))))) := by
  simp only [initGround, initLatchIdleHigh, initPinSetup]

@[simp] theorem initGround_params : (initGround s).params = s.params := by
  simp [initGround_eq, gotoSeq]
@[simp] theorem initGround_devices : (initGround s).devices = s.devices := by
  simp [State.devices]
@[simp] theorem initGround_shadow : (initGround s).shadow = s.shadow := by
  simp [initGround_eq, gotoSeq]
@[simp] theorem initGround_txbuf : (initGround s).txbuf = s.txbuf := by
  simp [initGround_eq, gotoSeq]
@[simp] theorem initGround_dir : (initGround s).dir = ⟨.out, .out, .out⟩ := by
  simp [initGround_eq, gotoSeq, PerPin.put]
@[simp] theorem initGround_load : (initGround s).level.load = true := by
  simp [initGround_eq, gotoSeq, PerPin.put]
@[simp] theorem initGround_micro : (initGround s).micro = s.micro := by
  simp [initGround_eq, gotoSeq]
@[simp] theorem initGround_port : (initGround s).port = s.port := by
  simp [initGround_eq, gotoSeq]
@[simp] theorem initGround_results : (initGround s).results = s.results := by
  simp [initGround_eq, gotoSeq]
theorem initGround_latched (h : s.rx.latched = []) : (initGround s).rx.latched = [] := by
  rw [initGround_eq, pin_rx]
  simp only [onPinWrite]
  split
  · exact latchEdge_latched _ _
  · simpa [gotoSeq] using h
@[simp] theorem initGround_trace : (initGround s).trace =
    s.trace ++ [Event.dirOut .data, Event.dirOut .clk, Event.dirOut .load, Event.write .load true] := by
  simp [initGround_eq, gotoSeq]

end Dir

/-- State ShutdownAll as acts (R213). -/
theorem initShutdownAll_acts (u : State) : initShutdownAll u =
    runActs (Act.goto .shutdownAll :: (List.range u.devices).flatMap shutdownActs) u :=
  forDevices_acts u.devices u.params.selfTestMs (fun d t => (shutdownDevice d true t).1)
    shutdownActs u.devices (Nat.le_refl _)
    (fun d t hd ht _ => by
      rw [shutdown_acts (by rw [ht]; exact hd), shutdownData_true, shutdownActs])
    (fun d t => runActs_params _ _) (gotoSeq .shutdownAll u) rfl rfl

/-- State Configure(d) for every device as acts (R214). -/
theorem configureAll_acts (u : State) : forDevices u.devices configureDevice u =
    runActs ((List.range u.devices).flatMap configureActs) u :=
  forDevices_acts u.devices u.params.selfTestMs configureDevice configureActs u.devices
    (Nat.le_refl _) (fun d t hd ht _ => configureDevice_acts (by rw [ht]; exact hd))
    (fun d t => runActs_params _ _) u rfl rfl

/-- State SelfTestSweep as acts (R218). -/
theorem initSelfTestSweep_acts (u : State) : initSelfTestSweep u =
    runActs (Act.goto .selfTestSweep ::
      (List.range u.devices).flatMap (selfTestActs u.params.selfTestMs)) u :=
  forDevices_acts u.devices u.params.selfTestMs selfTestDevice
    (selfTestActs u.params.selfTestMs) u.devices (Nat.le_refl _)
    (fun d t hd ht htm => by rw [selfTestDevice_acts (by rw [ht]; exact hd), htm])
    (fun d t => runActs_params _ _) (gotoSeq .selfTestSweep u) rfl rfl

/-- INITIALIZE is PinSetup, LatchIdleHigh and a list of acts (R210). -/
theorem runInitialize_acts (s : State) :
    runInitialize s = (runActs (initActs s.devices s.params.selfTestMs) (initGround s), .ok) := by
  unfold runInitialize returnOk
  rw [show initLatchIdleHigh (initPinSetup s) = initGround s from rfl, initShutdownAll_acts]
  dsimp only
  rw [configureAll_acts, ← runActs_append, initSelfTestSweep_acts, ← runActs_append,
    show ∀ u : State, gotoSeq .ready u = runActs [Act.goto .ready] u from fun _ => rfl,
    ← runActs_append]
  simp only [runActs_devices, runActs_params, initGround_params, initGround_devices, initActs,
    initHead, List.append_assoc, List.cons_append]

theorem mem_configureActs {d : Nat} {a : Act} (h : a ∈ configureActs d) :
    (∃ q, a = .goto q) ∨ (∃ r, r < 8 ∧ a = .store d r 0) ∨
      ∃ (reg : ChipReg) (v : Byte), a = .cmd d reg.opcode v := by
  simp only [configureActs, configureHead, configureTail, clearActs, rowList, List.mem_append, List.mem_flatMap, List.mem_cons,
    List.not_mem_nil, or_false] at h
  rcases h with (h | ⟨r, hr, h⟩) | h
  · rcases h with rfl | rfl | rfl | rfl | rfl | rfl | rfl
    · exact .inl ⟨_, rfl⟩
    · exact .inr (.inr ⟨.displayTest, 0, rfl⟩)
    · exact .inl ⟨_, rfl⟩
    · exact .inr (.inr ⟨.scanLimit, 7, rfl⟩)
    · exact .inl ⟨_, rfl⟩
    · exact .inr (.inr ⟨.decodeMode, 0, rfl⟩)
    · exact .inl ⟨_, rfl⟩
  · rcases h with rfl | rfl
    · exact .inr (.inl ⟨r, by omega, rfl⟩)
    · rcases hr with rfl | rfl | rfl | rfl | rfl | rfl | rfl | rfl
      · exact .inr (.inr ⟨.digit0, 0, rfl⟩)
      · exact .inr (.inr ⟨.digit1, 0, rfl⟩)
      · exact .inr (.inr ⟨.digit2, 0, rfl⟩)
      · exact .inr (.inr ⟨.digit3, 0, rfl⟩)
      · exact .inr (.inr ⟨.digit4, 0, rfl⟩)
      · exact .inr (.inr ⟨.digit5, 0, rfl⟩)
      · exact .inr (.inr ⟨.digit6, 0, rfl⟩)
      · exact .inr (.inr ⟨.digit7, 0, rfl⟩)
  · rcases h with rfl | rfl | rfl | rfl
    · exact .inl ⟨_, rfl⟩
    · exact .inr (.inr ⟨.intensity, 8, rfl⟩)
    · exact .inl ⟨_, rfl⟩
    · exact .inr (.inr ⟨.shutdown, 0, rfl⟩)

/-- Every act of INITIALIZE is about a device of the chain and names a register. -/
theorem mem_initActs {n ms : Nat} {a : Act} (h : a ∈ initActs n ms) :
    (∃ q, a = .goto q) ∨ (∃ k, a = .wait k) ∨ (∃ d r, d < n ∧ r < 8 ∧ a = .store d r 0) ∨
      ∃ (d : Nat) (reg : ChipReg) (v : Byte), d < n ∧ a = .cmd d reg.opcode v := by
  simp only [initActs, initHead, shutdownActs, List.mem_append, List.mem_flatMap, List.mem_range,
    List.mem_cons, List.not_mem_nil, or_false] at h
  rcases h with (rfl | ⟨d, hd, rfl⟩ | ⟨d, hd, h⟩) | rfl | ⟨d, hd, h⟩ | rfl
  · exact .inl ⟨_, rfl⟩
  · exact .inr (.inr (.inr ⟨d, .shutdown, 1, hd, rfl⟩))
  · rcases mem_configureActs h with ⟨q, rfl⟩ | ⟨r, hr, rfl⟩ | ⟨reg, v, rfl⟩
    · exact .inl ⟨_, rfl⟩
    · exact .inr (.inr (.inl ⟨d, r, hd, hr, rfl⟩))
    · exact .inr (.inr (.inr ⟨d, reg, v, hd, rfl⟩))
  · exact .inl ⟨_, rfl⟩
  · simp only [selfTestActs, List.mem_cons, List.not_mem_nil, or_false] at h
    rcases h with rfl | rfl | rfl
    · exact .inr (.inr (.inr ⟨d, .displayTest, 1, hd, rfl⟩))
    · exact .inr (.inl ⟨_, rfl⟩)
    · exact .inr (.inr (.inr ⟨d, .displayTest, 0, hd, rfl⟩))
  · exact .inl ⟨_, rfl⟩

theorem initActs_ok (n ms : Nat) : ∀ a ∈ initActs n ms, a.Ok n := by
  intro a h
  rcases mem_initActs h with ⟨q, rfl⟩ | ⟨k, rfl⟩ | ⟨d, r, hd, hr, rfl⟩ | ⟨d, reg, v, hd, rfl⟩
  · trivial
  · trivial
  · exact ⟨hd, hr⟩
  · exact hd

theorem initActs_named (n ms : Nat) : ∀ a ∈ initActs n ms, a.Named := by
  intro a h
  rcases mem_initActs h with ⟨q, rfl⟩ | ⟨k, rfl⟩ | ⟨d, r, hd, hr, rfl⟩ | ⟨d, reg, v, hd, rfl⟩
  · trivial
  · trivial
  · trivial
  · exact .inr ⟨reg, rfl⟩

/-- What every host operation but INITIALIZE does: it is accepted at Ready, and its acts follow. -/
theorem exec_hostActs {op : HostOp} {i : Instr} (h : decodeHost op = .ok i) (hi : i ≠ .hostInitialize)
    (s : State) :
    exec i s = whenReady (fun t => bodyOf (hostActs t.devices t.shadow i) t) s := by
  have go : ∀ {b c : State → State × Result}, (∀ t, b t = c t) → whenReady b s = whenReady c s := by
    intro b c h; rw [funext h]
  unfold decodeHost at h
  split at h <;> try (cases h)
  · exact absurd rfl hi
  · exact go fun t => clearDevice_acts _ t
  · exact go fun t => displayTest_acts _ t _
  · exact go fun t => setDecodeMode_acts _ t _
  · exact go fun t => setIntensity_acts _ t _
  · exact go fun t => setLed_acts _ t _ _ _
  · exact go fun t => setScanLimit_acts _ t _
  · exact go fun t => shutdownDevice_acts _ t _
  · exact go fun t => writeCommand_acts _ t _ _
  · rfl
  · rfl

end Sys2Proof.Machine
end

