-- ==== Sys2Proof/Laws/PerInstr.lean ====
section
/-!
SUPPORT. For every instruction: the bits its encoding fixes are those of its row in spec/opcode_table.json.
-/

namespace Sys2Proof.Laws

/-- The fixed bits of an instruction's row: `fixed` of spec/opcode_table.json (bits 7 to 0 of a WIRE16 word,
bits 3 to 0 of a HOST selector). -/
def tableFixed : Instr → Nat
  | .wireNoop _ => 0x00
  | .wireDigit0 _ => 0x01
  | .wireDigit1 _ => 0x02
  | .wireDigit2 _ => 0x03
  | .wireDigit3 _ => 0x04
  | .wireDigit4 _ => 0x05
  | .wireDigit5 _ => 0x06
  | .wireDigit6 _ => 0x07
  | .wireDigit7 _ => 0x08
  | .wireDecodeMode _ => 0x09
  | .wireIntensity _ => 0x0A
  | .wireScanLimit _ => 0x0B
  | .wireShutdown _ => 0x0C
  | .wireDisplayTest _ => 0x0F
  | .hostInitialize => 0
  | .hostClearDisplay _ => 1
  | .hostDisplayTest _ _ => 2
  | .hostSetDecodeMode _ _ => 3
  | .hostSetIntensity _ _ => 4
  | .hostSetLed _ _ _ _ => 5
  | .hostSetScanLimit _ _ => 6
  | .hostShutdown _ _ => 7
  | .hostWriteCommand _ _ _ => 8
  | .hostSetRow => 9
  | .hostSetCol => 10

/-- The encoding of the instruction has the fixed bits of its row and the format of its row. -/
def FixedBits.Statement (i : Instr) : Prop :=
  match encode i with
  | .wire w => wireOpcode w = BitVec.ofNat 8 (tableFixed i)
  | .host op => op.sel = BitVec.ofNat 4 (tableFixed i)

theorem FixedBits.wireNoop (data : Byte) : FixedBits.Statement (.wireNoop data) :=
  wireOpcode_wireWord data _

theorem FixedBits.wireDigit0 (data : Byte) : FixedBits.Statement (.wireDigit0 data) :=
  wireOpcode_wireWord data _

theorem FixedBits.wireDigit1 (data : Byte) : FixedBits.Statement (.wireDigit1 data) :=
  wireOpcode_wireWord data _

theorem FixedBits.wireDigit2 (data : Byte) : FixedBits.Statement (.wireDigit2 data) :=
  wireOpcode_wireWord data _

theorem FixedBits.wireDigit3 (data : Byte) : FixedBits.Statement (.wireDigit3 data) :=
  wireOpcode_wireWord data _

theorem FixedBits.wireDigit4 (data : Byte) : FixedBits.Statement (.wireDigit4 data) :=
  wireOpcode_wireWord data _

theorem FixedBits.wireDigit5 (data : Byte) : FixedBits.Statement (.wireDigit5 data) :=
  wireOpcode_wireWord data _

theorem FixedBits.wireDigit6 (data : Byte) : FixedBits.Statement (.wireDigit6 data) :=
  wireOpcode_wireWord data _

theorem FixedBits.wireDigit7 (data : Byte) : FixedBits.Statement (.wireDigit7 data) :=
  wireOpcode_wireWord data _

theorem FixedBits.wireDecodeMode (data : Byte) : FixedBits.Statement (.wireDecodeMode data) :=
  wireOpcode_wireWord data _

theorem FixedBits.wireIntensity (data : Byte) : FixedBits.Statement (.wireIntensity data) :=
  wireOpcode_wireWord data _

theorem FixedBits.wireScanLimit (data : Byte) : FixedBits.Statement (.wireScanLimit data) :=
  wireOpcode_wireWord data _

theorem FixedBits.wireShutdown (data : Byte) : FixedBits.Statement (.wireShutdown data) :=
  wireOpcode_wireWord data _

theorem FixedBits.wireDisplayTest (data : Byte) : FixedBits.Statement (.wireDisplayTest data) :=
  wireOpcode_wireWord data _

theorem FixedBits.hostInitialize : FixedBits.Statement .hostInitialize := rfl

theorem FixedBits.hostClearDisplay (device : Int) :
    FixedBits.Statement (.hostClearDisplay device) := rfl

theorem FixedBits.hostDisplayTest (device : Int) (enabled : Bool) :
    FixedBits.Statement (.hostDisplayTest device enabled) := rfl

theorem FixedBits.hostSetDecodeMode (device mode : Int) :
    FixedBits.Statement (.hostSetDecodeMode device mode) := rfl

theorem FixedBits.hostSetIntensity (device level : Int) :
    FixedBits.Statement (.hostSetIntensity device level) := rfl

theorem FixedBits.hostSetLed (device row column : Int) (state : Bool) :
    FixedBits.Statement (.hostSetLed device row column state) := rfl

theorem FixedBits.hostSetScanLimit (device limit : Int) :
    FixedBits.Statement (.hostSetScanLimit device limit) := rfl

theorem FixedBits.hostShutdown (device : Int) (enabled : Bool) :
    FixedBits.Statement (.hostShutdown device enabled) := rfl

theorem FixedBits.hostWriteCommand (device opcode value : Int) :
    FixedBits.Statement (.hostWriteCommand device opcode value) := rfl

theorem FixedBits.hostSetRow : FixedBits.Statement .hostSetRow := rfl

theorem FixedBits.hostSetCol : FixedBits.Statement .hostSetCol := rfl

end Sys2Proof.Laws
end

