-- ==== Sys2Proof/Laws/Step.lean ====
section
/-!
SUPPORT. What INITIALIZE leaves of the block, and all that one step can do.
-/

namespace Sys2Proof.Machine

open Sys2Proof.Safety

/-- The state in which INITIALIZE ends, before its result is reported. -/
def initEnd (s : State) : State := runActs (initActs s.devices s.params.selfTestMs) (initGround s)

theorem initEnd_ran (s : State) :
    Ran (initActs s.devices s.params.selfTestMs) (initGround s) (initEnd s) :=
  runActs_ran _ _ (by rw [initGround_devices]; exact initActs_ok _ _)

section InitEnd

variable (s : State)

@[simp] theorem initEnd_params : (initEnd s).params = s.params := by
  rw [(initEnd_ran s).params, initGround_params]
@[simp] theorem initEnd_devices : (initEnd s).devices = s.devices := by
  unfold State.devices; rw [initEnd_params]
@[simp] theorem initEnd_dir : (initEnd s).dir = ⟨.out, .out, .out⟩ := by
  rw [(initEnd_ran s).dir, initGround_dir]
@[simp] theorem initEnd_micro : (initEnd s).micro = s.micro := by
  rw [(initEnd_ran s).micro, initGround_micro]
@[simp] theorem initEnd_port : (initEnd s).port = s.port := by
  rw [(initEnd_ran s).port, initGround_port]
@[simp] theorem initEnd_results : (initEnd s).results = s.results := by
  rw [(initEnd_ran s).results, initGround_results]

@[simp] theorem initEnd_seq : (initEnd s).seq = .ready := by
  obtain ⟨l, hl⟩ : ∃ l, initActs s.devices s.params.selfTestMs = l ++ [Act.goto .ready] :=
    ⟨initHead s.devices ++ Act.goto .selfTestSweep ::
      (List.range s.devices).flatMap (selfTestActs s.params.selfTestMs), by simp [initActs]⟩
  rw [(initEnd_ran s).seq, hl, List.foldl_append]
  rfl

theorem initEnd_latched (h : s.rx.latched = []) : (initEnd s).rx.latched = [] :=
  (initEnd_ran s).latched (initGround_latched s h)

/-- The last frame of INITIALIZE is the end of the self-test of the farthest device (R218). -/
theorem initEnd_last : ∃ m : State, m.devices = s.devices ∧
    SentFrame s.params.farthest Config.opDisplayTest 0 m (initEnd s) := by
  obtain ⟨l, hl⟩ : ∃ l, initActs s.devices s.params.selfTestMs =
      l ++ [Act.cmd s.params.farthest Config.opDisplayTest 0, Act.goto .ready] := by
    refine ⟨initHead s.devices ++ Act.goto .selfTestSweep ::
      ((List.range s.params.farthest).flatMap (selfTestActs s.params.selfTestMs) ++
        [Act.cmd s.params.farthest Config.opDisplayTest 1, Act.wait s.params.selfTestMs]), ?_⟩
    rw [show s.devices = s.params.farthest + 1 from rfl]
    simp [initActs, List.range_succ, selfTestActs]
  have hd : s.params.farthest < (runActs l (initGround s)).devices := by
    rw [runActs_devices, initGround_devices]; exact Nat.lt_succ_self _
  have h := sendCommand_sentFrame Config.opDisplayTest 0 hd
  refine ⟨gotoSeq .ready (runActs l (initGround s)), ?_, ?_⟩
  · rw [show ∀ q (u : State), (gotoSeq q u).devices = u.devices from fun _ _ => rfl, runActs_devices,
      initGround_devices]
  · unfold initEnd
    rw [hl, runActs_append]
    exact ⟨h.1, h.2, h.3, h.4, h.5, h.6, rfl, h.8, h.9, h.10⟩

end InitEnd

/-- INITIALIZE, accepted, ends in `initEnd` with OK (R210, R219). -/
theorem exec_hostInitialize {s : State} (hm : s.micro = .idle) (hs : s.seq = .powerOn ∨ s.seq = .ready) :
    exec .hostInitialize s = .next ((initEnd s).setResults (s.results ++ [.ok])) := by
  have h : exec .hostInitialize s = .next (reportResult (runInitialize s)) := by
    show whenPowerOnOrReady runInitialize s = _
    simp [whenPowerOnOrReady, hm, hs]
  rw [h, runInitialize_acts, reportResult_mk]
  show Host.Outcome.next ((initEnd s).setResults ((initEnd s).results ++ [.ok])) = _
  rw [initEnd_results]

/-- A word that a chip takes runs as an instruction of the machine. -/
theorem exec_latched {s : State} {d : Nat} {w : Word} {i : Instr} (h : decodeWire w = .ok i) :
    exec i (s.setRx { s.rx with acting := d }) = .next (s.setRx (takeWord s.rx (d, w))) := by
  unfold takeWord
  simp only [h]
  rcases decodeWire_ok h with ⟨_, rfl⟩ | ⟨reg, _, rfl⟩
  · rfl
  · cases reg <;> rfl

/-- All that one step can do. -/
inductive Stepped (s : State) : State → Prop
  /-- A chip acted on its word. -/
  | word (d : Nat) (w : Word) (rest : List (Nat × Word)) (h : s.rx.latched = (d, w) :: rest) :
    Stepped s (s.setRx (takeWord { s.rx with latched := rest } (d, w)))
  /-- A running frame made one event. -/
  | frame (hl : s.rx.latched = []) (hm : s.micro ≠ .idle) : Stepped s (microStep s)
  /-- Nothing was presented. -/
  | idle (hl : s.rx.latched = []) (hm : s.micro = .idle) (hp : s.port = []) : Stepped s s
  /-- A selector that names no operation was answered. -/
  | reserved (op : HostOp) (rest : List HostOp) (hl : s.rx.latched = []) (hm : s.micro = .idle)
    (hp : s.port = op :: rest) (hs : s.seq = .ready) :
    Stepped s ((s.setPort rest).setResults (s.results ++ [.unimplemented]))
  /-- An operation but INITIALIZE ran to its end. -/
  | operation (op : HostOp) (rest : List HostOp) (i : Instr) (hl : s.rx.latched = [])
    (hm : s.micro = .idle) (hp : s.port = op :: rest) (hd : decodeHost op = .ok i)
    (hi : i ≠ .hostInitialize) (hs : s.seq = .ready) :
    Stepped s ((runActs (hostActs s.devices s.shadow i).1 (s.setPort rest)).setResults
      (s.results ++ [(hostActs s.devices s.shadow i).2]))
  /-- INITIALIZE ran to its end. -/
  | initialized (op : HostOp) (rest : List HostOp) (hl : s.rx.latched = []) (hm : s.micro = .idle)
    (hp : s.port = op :: rest) (hd : decodeHost op = .ok .hostInitialize)
    (hs : s.seq = .powerOn ∨ s.seq = .ready) :
    Stepped s ((initEnd (s.setPort rest)).setResults (s.results ++ [.ok]))

/-- A next state of `step` is one of those. -/
theorem step_next {s t : State} (h : step s = .next t) : Stepped s t := by
  unfold step at h
  cases hl : s.rx.latched with
  | cons dw rest =>
    obtain ⟨d, w⟩ := dw
    simp only [fetch, hl] at h
    have hw := Stepped.word d w rest hl
    cases hd : decodeWire w with
    | error e =>
      simp only [hd] at h
      cases h
      have : takeWord { s.rx with latched := rest } (d, w) =
          takeWord { s.rx with latched := rest, acting := d } (d, w) := by
        unfold takeWord; rw [hd]
      rw [this] at hw
      exact hw
    | ok i =>
      simp only [hd] at h
      have he := exec_latched (s := s.setRx { s.rx with latched := rest }) (d := d) hd
      have : Host.Outcome.next t = _ := h.symm.trans he
      cases this
      exact hw
  | nil =>
    simp only [fetch, hl] at h
    by_cases hm : s.micro = .idle
    · simp only [hm, if_true] at h
      cases hp : s.port with
      | nil => simp only [hp] at h; cases h; exact .idle hl hm hp
      | cons op rest =>
        simp only [hp] at h
        cases hd : decodeHost op with
        | error e =>
          simp only [hd] at h
          obtain ⟨ha, rfl⟩ := whenReady_next h
          exact .reserved op rest hl hm hp ha.1
        | ok i =>
          simp only [hd] at h
          by_cases hi : i = .hostInitialize
          · subst hi
            obtain ⟨h1, h2, _⟩ := whenPowerOnOrReady_next h
            rw [exec_hostInitialize h1 h2] at h
            cases h
            exact .initialized op rest hl hm hp hd h2
          · rw [exec_hostActs hd hi] at h
            obtain ⟨ha, rfl⟩ := whenReady_next h
            have hok := hostActs_ok s.devices s.shadow i
            have hr := (runActs_ran _ (s.setPort rest) hok).results
            have := Stepped.operation op rest i hl hm hp hd hi ha.1
            simp only [bodyOf, reportResult_mk, setPort_devices, setPort_shadow]
            rw [hr]
            exact this
    · simp only [hm, if_false] at h
      cases h
      exact .frame hl hm

end Sys2Proof.Machine
end

