-- ==== Sys2Proof/Tests/Slice0.lean ====
section
/-!
SUPPORT. Tests: every check of the well-formedness refuses an ill-formed term; every constructor's decoding from a
word written out from the encodings of 30_encoding.md; steps checked against the vectors of
95_test_vectors.md; and for every statement with hypotheses a witness that meets them.
-/

set_option maxRecDepth 100000

namespace Sys2Proof.Tests

open Sys2Proof.Machine Sys2Proof.Safety

/-- Ready(N) of 95_test_vectors.md with N chips wired, for the index of the farthest device. -/
def readyS (farthest : Nat) : State :=
  { State.powerOn ⟨farthest, farthest + 1, 5⟩ with
    seq := .ready, level := ⟨false, false, true⟩, dir := ⟨.out, .out, .out⟩ }

/-- A check of the state an outcome leads to. -/
def after (o : StepOutcome) (f : State → Bool) : Bool :=
  match o with
  | .next t => f t
  | .fault _ => false
  | .refused _ => false

/-- The refusal an outcome is. -/
def refusal (o : StepOutcome) : Option Refusal :=
  match o with
  | .next _ => none
  | .fault _ => none
  | .refused r => some r

/-- What a decoder gives, as a plain option. -/
def decoded (x : Except DecodeReject Instr) : Option Instr := x.toOption

/-! ## Well-formed instructions (30_encoding.md R82, R88): each check refuses -/

theorem test_wf_refuses_noop_data : Instr.wellFormed 2 (.wireNoop 0x7F) = false := by decide
theorem test_wf_refuses_intensity_data : Instr.wellFormed 2 (.wireIntensity 0x10) = false := by decide
theorem test_wf_refuses_scan_limit_data : Instr.wellFormed 2 (.wireScanLimit 0x08) = false := by decide
theorem test_wf_refuses_wire_shutdown_data : Instr.wellFormed 2 (.wireShutdown 0x02) = false := by decide
theorem test_wf_refuses_wire_display_test_data : Instr.wellFormed 2 (.wireDisplayTest 0x02) = false := by decide
theorem test_wf_refuses_clear_display_device_low : Instr.wellFormed 2 (.hostClearDisplay (-1)) = false := by decide
theorem test_wf_refuses_clear_display_device_high : Instr.wellFormed 2 (.hostClearDisplay 2) = false := by decide
theorem test_wf_refuses_display_test_device : Instr.wellFormed 2 (.hostDisplayTest 2 true) = false := by decide
theorem test_wf_refuses_decode_mode_device : Instr.wellFormed 2 (.hostSetDecodeMode 2 0) = false := by decide
theorem test_wf_refuses_decode_mode_mode : Instr.wellFormed 2 (.hostSetDecodeMode 0 256) = false := by decide
theorem test_wf_refuses_intensity_device : Instr.wellFormed 2 (.hostSetIntensity (-1) 0) = false := by decide
theorem test_wf_refuses_intensity_level : Instr.wellFormed 2 (.hostSetIntensity 0 16) = false := by decide
theorem test_wf_refuses_led_device : Instr.wellFormed 2 (.hostSetLed 2 0 0 true) = false := by decide
theorem test_wf_refuses_led_row : Instr.wellFormed 2 (.hostSetLed 0 8 0 true) = false := by decide
theorem test_wf_refuses_led_column : Instr.wellFormed 2 (.hostSetLed 0 0 (-1) true) = false := by decide
theorem test_wf_refuses_scan_limit_device : Instr.wellFormed 2 (.hostSetScanLimit 2 0) = false := by decide
theorem test_wf_refuses_scan_limit_limit : Instr.wellFormed 2 (.hostSetScanLimit 0 8) = false := by decide
theorem test_wf_refuses_shutdown_device : Instr.wellFormed 2 (.hostShutdown 2 true) = false := by decide
theorem test_wf_refuses_write_device : Instr.wellFormed 2 (.hostWriteCommand 2 1 1) = false := by decide
theorem test_wf_refuses_write_opcode : Instr.wellFormed 2 (.hostWriteCommand 0 256 0) = false := by decide
theorem test_wf_refuses_write_value : Instr.wellFormed 2 (.hostWriteCommand 0 1 (-1)) = false := by decide
theorem test_wf_accepts_borders : Instr.wellFormed 2 (.hostSetLed 1 7 7 false) = true ∧
    Instr.wellFormed 2 (.hostSetIntensity 0 15) = true ∧ Instr.wellFormed 2 (.wireIntensity 0x0F) = true := by
  decide

/-! ## Decoding, from words written out bit by bit (30_encoding.md R81, R82, R85, R86; W1 to W16) -/

theorem test_decode_wireNoop : decoded (decodeWire 0b0111111100000000) = some (.wireNoop 0x7F) := by decide
theorem test_decode_wireDigit0 : decoded (decodeWire 0b1000000000000001) = some (.wireDigit0 0x80) := by decide
theorem test_decode_wireDigit1 : decoded (decodeWire 0b0100000000000010) = some (.wireDigit1 0x40) := by decide
theorem test_decode_wireDigit2 : decoded (decodeWire 0b0010000000000011) = some (.wireDigit2 0x20) := by decide
theorem test_decode_wireDigit3 : decoded (decodeWire 0b0001000000000100) = some (.wireDigit3 0x10) := by decide
theorem test_decode_wireDigit4 : decoded (decodeWire 0b0000000000000101) = some (.wireDigit4 0x00) := by decide
theorem test_decode_wireDigit5 : decoded (decodeWire 0b0010000000000110) = some (.wireDigit5 0x20) := by decide
theorem test_decode_wireDigit6 : decoded (decodeWire 0b0010000000000111) = some (.wireDigit6 0x20) := by decide
theorem test_decode_wireDigit7 : decoded (decodeWire 0b1111111100001000) = some (.wireDigit7 0xFF) := by decide
theorem test_decode_wireDecodeMode : decoded (decodeWire 0b1111111100001001) = some (.wireDecodeMode 0xFF) := by decide
theorem test_decode_wireIntensity : decoded (decodeWire 0b0000111100001010) = some (.wireIntensity 0x0F) := by decide
theorem test_decode_wireScanLimit : decoded (decodeWire 0b0000011100001011) = some (.wireScanLimit 0x07) := by decide
theorem test_decode_wireShutdown : decoded (decodeWire 0b0000000100001100) = some (.wireShutdown 0x01) := by decide
theorem test_decode_wireDisplayTest : decoded (decodeWire 0b0000000100001111) = some (.wireDisplayTest 0x01) := by decide
theorem test_decode_reserved : decoded (decodeWire 0b0101010100001101) = none ∧
    decoded (decodeWire 0b0000000000010000) = none ∧ decoded (decodeWire 0b0000000000001110) = none := by
  decide
theorem test_decode_hostInitialize : decoded (decodeHost ⟨0b0000, 9, 9, 9, true⟩) = some (.hostInitialize) := by decide
theorem test_decode_hostClearDisplay : decoded (decodeHost ⟨0b0001, 1, 0, 0, false⟩) = some (.hostClearDisplay 1) := by decide
theorem test_decode_hostDisplayTest : decoded (decodeHost ⟨0b0010, 0, 0, 0, true⟩) = some (.hostDisplayTest 0 true) := by decide
theorem test_decode_hostSetDecodeMode : decoded (decodeHost ⟨0b0011, 1, 255, 0, false⟩) = some (.hostSetDecodeMode 1 255) := by decide
theorem test_decode_hostSetIntensity : decoded (decodeHost ⟨0b0100, 0, 16, 0, false⟩) = some (.hostSetIntensity 0 16) := by decide
theorem test_decode_hostSetLed : decoded (decodeHost ⟨0b0101, 1, 8, 0, true⟩) = some (.hostSetLed 1 8 0 true) := by decide
theorem test_decode_hostSetScanLimit : decoded (decodeHost ⟨0b0110, 0, 3, 0, false⟩) = some (.hostSetScanLimit 0 3) := by decide
theorem test_decode_hostShutdown : decoded (decodeHost ⟨0b0111, 1, 0, 0, true⟩) = some (.hostShutdown 1 true) := by decide
theorem test_decode_hostWriteCommand : decoded (decodeHost ⟨0b1000, 0, 1, 255, false⟩) = some (.hostWriteCommand 0 1 255) := by decide
theorem test_decode_hostSetRow : decoded (decodeHost ⟨0b1001, 99, -5, 0, false⟩) = some (.hostSetRow) := by decide
theorem test_decode_hostSetCol : decoded (decodeHost ⟨0b1010, 0, 0, 255, false⟩) = some (.hostSetCol) := by decide
theorem test_decode_reserved_selectors : decoded (decodeHost ⟨0b1011, 0, 0, 0, false⟩) = none ∧
    decoded (decodeHost ⟨0b1111, 0, 0, 0, false⟩) = none := by decide

/-- The rows of spec/opcode_table.json in its own numbering of bits (log 17). -/
theorem test_table_words : decodeTableWord 16 0x010C = some (.wireShutdown 0x01) ∧
    decodeTableWord 16 0x550D = none ∧ decodeTableWord 8 0x7 = some (.hostShutdown 0 false) ∧
    decodeTableWord 8 0xB = none := by decide

theorem test_frame_decodes : (decodeFrame [0x00, 0x00, 0x2A, 0x0A, 0x00, 0x00]).toOption =
    some [.wireNoop 0, .wireIntensity 0x2A, .wireNoop 0] := by decide

/-! ## Serializer and transmitter (V3, V6, V13, V61, V62) -/

/-- V3: the events of 0xA5 in full. -/
theorem test_serialize_A5 : (serializeByte 0xA5 (readyS 0)).trace =
    [.write .data true, .write .clk true, .write .clk false, .write .data false, .write .clk true,
     .write .clk false, .write .data true, .write .clk true, .write .clk false, .write .data false,
     .write .clk true, .write .clk false, .write .data false, .write .clk true, .write .clk false,
     .write .data true, .write .clk true, .write .clk false, .write .data false, .write .clk true,
     .write .clk false, .write .data true, .write .clk true, .write .clk false] := by decide

/-- V4, V5: the most significant bit goes first, the least significant one stays on DATA. -/
theorem test_serialize_ends : (serializeByte 0x80 (readyS 0)).trace.head? = some (.write .data true) ∧
    (serializeByte 0x01 (readyS 0)).level = ⟨true, false, true⟩ := by decide

/-- V13: the bytes on the wire, as an observer of the pins reads them. -/
theorem test_V13_frame : after (exec (.hostWriteCommand 1 0x0A 0x2A) (readyS 2))
    (fun t => framesOf t.trace = [[0x00, 0x00, 0x2A, 0x0A, 0x00, 0x00]] ∧ t.trace.length = 146) := by
  decide

/-- V13: chip 1 alone writes its register. -/
theorem test_V13_chips : after (exec (.hostWriteCommand 1 0x0A 0x2A) (readyS 2))
    (fun t => chipReg t 1 .intensity = 0x2A ∧ chipReg t 0 .intensity = 0 ∧
      chipReg t 2 .intensity = 0) := by decide

/-- V15 then V14: no stale opcode bleeds into another chip. -/
theorem test_buffer_rebuilt : after
    (execAll [.hostWriteCommand 2 0x0F 0x01, .hostWriteCommand 0 0x0C 0x01] (readyS 2))
    (fun t => (List.range 6).map (txbufAt t) = [0x01, 0x0C, 0, 0, 0, 0]) := by decide

/-- V61: with CLK high before the frame the chip misses the first bit and keeps an old one. -/
theorem test_V61 : chipReg (sendCommand 0 0x0C 0x01
    { readyS 0 with
      level := ⟨false, true, true⟩
      rx := ⟨List.replicate 16 true, [], [], 0, 0⟩ }) 0 .shutdown = 0x81 := by decide

/-- A frame one event at a time: bit 7 of the first byte of V10 is the second to the fourth event. -/
theorem test_micro_frame :
    (microRun 4 (startFrame (buildBuffer 0 0x0A 0x08 (readyS 0)))).trace =
      [.write .load false, .write .data false, .write .clk true, .write .clk false] ∧
    (microRun 4 (startFrame (buildBuffer 0 0x0A 0x08 (readyS 0)))).micro =
      .bit 0 .first 6 .setData := by decide

/-! ## Wire commands, each as the word a chip takes (W1 to W16; R110 to R123) -/

/-- Chip 1 of three takes a word; the step runs it. -/
def takes (w : Word) : StepOutcome :=
  step ((readyS 2).setRx { (readyS 2).rx with latched := [(1, w)] })

theorem test_step_wireNoop : after (takes 0x7F00) (fun t => t.rx.regs = [] ∧ t.rx.latched = []) := by decide
theorem test_step_wireDigit0 : after (takes 0x8001)
    (fun t => chipReg t 1 .digit0 = 0x80 ∧ t.rx.regs.length = 1) := by decide
theorem test_step_wireDigit1 : after (takes 0x4002)
    (fun t => chipReg t 1 .digit1 = 0x40 ∧ t.rx.regs.length = 1) := by decide
theorem test_step_wireDigit2 : after (takes 0x2003)
    (fun t => chipReg t 1 .digit2 = 0x20 ∧ t.rx.regs.length = 1) := by decide
theorem test_step_wireDigit3 : after (takes 0x1004)
    (fun t => chipReg t 1 .digit3 = 0x10 ∧ t.rx.regs.length = 1) := by decide
theorem test_step_wireDigit4 : after (takes 0x5A05)
    (fun t => chipReg t 1 .digit4 = 0x5A ∧ t.rx.regs.length = 1) := by decide
theorem test_step_wireDigit5 : after (takes 0x2006)
    (fun t => chipReg t 1 .digit5 = 0x20 ∧ t.rx.regs.length = 1) := by decide
theorem test_step_wireDigit6 : after (takes 0x2007)
    (fun t => chipReg t 1 .digit6 = 0x20 ∧ t.rx.regs.length = 1) := by decide
theorem test_step_wireDigit7 : after (takes 0xFF08)
    (fun t => chipReg t 1 .digit7 = 0xFF ∧ t.rx.regs.length = 1) := by decide
theorem test_step_wireDecodeMode : after (takes 0xFF09)
    (fun t => chipReg t 1 .decodeMode = 0xFF ∧ t.rx.regs.length = 1) := by decide
theorem test_step_wireIntensity : after (takes 0x0F0A)
    (fun t => chipReg t 1 .intensity = 0x0F ∧ t.rx.regs.length = 1) := by decide
theorem test_step_wireScanLimit : after (takes 0x070B)
    (fun t => chipReg t 1 .scanLimit = 0x07 ∧ t.rx.regs.length = 1) := by decide
theorem test_step_wireShutdown : after (takes 0x010C)
    (fun t => chipReg t 1 .shutdown = 0x01 ∧ t.rx.regs.length = 1) := by decide
theorem test_step_wireDisplayTest : after (takes 0x010F)
    (fun t => chipReg t 1 .displayTest = 0x01 ∧ t.rx.regs.length = 1) := by decide

/-- W14: a RESERVED word does not stop the machine. -/
theorem test_step_reserved_word : after (takes 0x550D)
    (fun t => t.rx.latched = [] ∧ t.rx.draws = 1 ∧ t.results = []) := by decide

/-! ## Host operations (95_test_vectors.md, section 2 and part 3) -/

/-- V20, columns 0 and 7. -/
theorem test_step_hostSetLed : after (exec (.hostSetLed 0 3 0 true) (readyS 0))
      (fun t => shadowAt t 0 3 = 0x80 ∧ framesOf t.trace = [[0x80, 0x04]]) ∧
    after (exec (.hostSetLed 0 3 7 true) (readyS 0)) (fun t => shadowAt t 0 3 = 0x01) := by decide

/-- V22: on then off does not restore a bit that was 1. -/
theorem test_led_round_trip : after
    (execAll [.hostSetLed 0 2 4 true, .hostSetLed 0 2 4 false] (writeShadow 0 2 0xFF (readyS 0)))
    (fun t => shadowAt t 0 2 = 0xF7) := by decide

/-- V30 on a chain of one: the shadow, the buffer and the last level of CLEAR_DISPLAY(0). -/
theorem test_step_hostClearDisplay : after
    (exec (.hostClearDisplay 0) (writeShadow 0 7 0x55 (writeShadow 0 0 0x55 (readyS 0))))
    (fun t => t.shadow = [] ∧ t.txbuf = [(1, 0x08)] ∧ t.level = ⟨false, false, true⟩) := by decide

/-- V30: the first and the last frame of CLEAR_DISPLAY(1) on three devices. -/
theorem test_clear_frames : framesOf ((commandEvents 3 1 1 0) ++ (commandEvents 3 1 8 0)) =
    [[0, 0, 0, 1, 0, 0], [0, 0, 0, 8, 0, 0]] := by decide

/-- V10: SET_INTENSITY(0, 8). -/
theorem test_step_hostSetIntensity : after (exec (.hostSetIntensity 0 8) (readyS 0))
    (fun t => framesOf t.trace = [[0x08, 0x0A]] ∧ chipReg t 0 .intensity = 8 ∧ t.results = [.ok]) := by
  decide

/-- V34, V73: a bad level, and a bad device before it. -/
theorem test_intensity_drops : after (exec (.hostSetIntensity 0 16) (readyS 1))
      (fun t => t.results = [.invalidValue] ∧ t.trace = []) ∧
    after (exec (.hostSetIntensity 7 77) (readyS 1)) (fun t => t.results = [.invalidIndex]) := by decide

/-- P3, operation 6. -/
theorem test_step_hostSetScanLimit : after (exec (.hostSetScanLimit 0 3) (readyS 1))
    (fun t => framesOf t.trace = [[0, 0, 0x03, 0x0B]]) := by decide

/-- P3, operation 5. -/
theorem test_scan_limit_drops : after (exec (.hostSetScanLimit 0 8) (readyS 1))
    (fun t => t.results = [.invalidValue] ∧ t.trace = []) := by decide

/-- D3: the mode is reduced to a byte. -/
theorem test_step_hostSetDecodeMode : after (exec (.hostSetDecodeMode 1 (-1)) (readyS 1))
    (fun t => framesOf t.trace = [[0xFF, 0x09, 0, 0]]) := by decide

/-- P3, operation 11, and V41's frame 15. -/
theorem test_step_hostShutdown : after (exec (.hostShutdown 1 true) (readyS 1))
      (fun t => framesOf t.trace = [[0x01, 0x0C, 0, 0]]) ∧
    after (exec (.hostShutdown 0 false) (readyS 1))
      (fun t => framesOf t.trace = [[0, 0, 0x00, 0x0C]]) := by decide

/-- P3, operation 12. -/
theorem test_step_hostDisplayTest : after (exec (.hostDisplayTest 0 true) (readyS 1))
    (fun t => framesOf t.trace = [[0, 0, 0x01, 0x0F]]) := by decide

/-- V19: raw operands are reduced by `trunc8`. -/
theorem test_step_hostWriteCommand : after (exec (.hostWriteCommand 0 0x109 0x1FF) (readyS 0))
    (fun t => framesOf t.trace = [[0xFF, 0x09]] ∧ t.shadow = []) := by decide

/-- V17, V18: the drop leaves even the buffer. -/
theorem test_write_command_drops : after (exec (.hostWriteCommand (-1) 1 1) (readyS 1))
    (fun t => t = { readyS 1 with results := [.invalidIndex] }) := by decide

/-- V50. -/
theorem test_step_hostSetRow : after (exec .hostSetRow (readyS 0))
    (fun t => t = { readyS 0 with results := [.unimplemented] }) := by decide

/-- V51. -/
theorem test_step_hostSetCol : after (exec .hostSetCol (readyS 0))
    (fun t => t = { readyS 0 with results := [.unimplemented] }) := by decide

/-- V53: a reserved selector. -/
theorem test_step_reserved_selector : after (step ((readyS 0).setPort [⟨11, 0, 0, 0, false⟩]))
    (fun t => t.results = [.unimplemented] ∧ t.port = []) := by decide

/-- V72: the column is checked last. -/
theorem test_led_drops : after (exec (.hostSetLed 1 0 9 true) (readyS 1))
      (fun t => t.results = [.invalidValue]) ∧
    after (exec (.hostSetLed 5 9 9 true) (readyS 1)) (fun t => t.results = [.invalidIndex]) := by decide

/-- V56: refused before INITIALIZE. -/
theorem test_not_ready : refusal (exec (.hostClearDisplay 0) State.reset) = some .notReady ∧
    refusal (exec .hostSetRow State.reset) = some .notReady := by decide

/-- V40, V58: INITIALIZE as the first step after reset, its buffer and levels. -/
theorem test_step_hostInitialize : after (step (State.reset.withFetchWord 8 0))
    (fun t => t.seq = .ready ∧ t.txbuf = [(1, 0x0F)] ∧ t.level = ⟨true, false, true⟩) := by decide

/-- V40: the events of INITIALIZE by count. -/
theorem test_init_events : (initEvents 1 5).length = 805 ∧
    (initEvents 1 5).count (.write .data true) = 42 ∧ (initEvents 1 5)[754]? = some (.delay 5) := by decide

/-- Every row of the table runs as the first step after reset (log 17). -/
theorem test_fetch_host : after (step (State.reset.withFetchWord 8 4)) (fun t => t.results = [.ok]) := by
  decide

theorem test_fetch_wire : after (step (State.reset.withFetchWord 16 0x010C))
    (fun t => chipReg t 0 .shutdown = 1) := by decide

/-! ## Witnesses: for every statement with hypotheses, states and operands that meet them together, at the
borders of each clause -/

/-- A chip's word on a chain of 16 bits: 0x8001 in position order. -/
def chain8001 : List Bool := true :: (List.replicate 14 false ++ [true])

theorem witness_EncodeAfterDecodeWire :
    decodeWire 0x8001 = .ok (.wireDigit0 0x80) ∧ decodeWire 0x000F = .ok (.wireDisplayTest 0) := ⟨rfl, rfl⟩

theorem witness_FrameOfCommandsDecodes :
    ∀ i ∈ [Instr.wireDigit0 0x80, .wireDisplayTest 0xFF], ∃ w, encode i = .wire w := by simp [encode]

theorem witness_WireDecoderRejectsReservedOpcodes :
    (wireOpcode 0x550D = 0x0D ∧ wireOpcode 0x000E = 0x0E ∧ 0x10 ≤ (wireOpcode 0x0010).toNat) ∧
    wireOpcode 0x000F ≠ 0x0D ∧ wireOpcode 0x000F ≠ 0x0E ∧ (wireOpcode 0x000F).toNat < 0x10 := by decide

theorem witness_HostSelectorsNameOperations :
    11 ≤ (11 : BitVec 4).toNat ∧ 11 ≤ (15 : BitVec 4).toNat := by decide

theorem witness_FrameFollowsTheWireFormula :
    2 < (readyS 2).devices ∧ 0 < (readyS 0).devices ∧ (5 = 2 * 2 ∨ 5 = 2 * 2 + 1) ∧ 7 < 8 := by decide

theorem witness_MicroStepsRefineTransmitChain :
    (readyS 2).micro = .idle := by decide

theorem witness_FrameCarriesOneCommand :
    (0 < 1 ∧ 2 < 3) ∧ decodeWire (wireWord 0x80 1) = .ok (.wireDigit0 0x80) := ⟨by decide, rfl⟩

theorem witness_ChipHoldsItsSlotAfterAFrame :
    ((readyS 2).level.clk = false ∧ (readyS 2).rx.chain.length = 16 * (readyS 2).params.wired) ∧
    (47 < 16 * (readyS 2).devices ∧ 47 < 16 * (readyS 2).params.wired) ∧
    Wired (readyS 2) 0 ∧ Wired (readyS 2) 2 := by decide

/-- A state with CLK high before a frame. -/
def clkHigh : State := { readyS 2 with level := ⟨false, true, true⟩ }

theorem witness_MissingFirstEdgeSpoilsOneBit :
    (clkHigh.level.clk = true ∧ clkHigh.rx.chain.length = 16 * clkHigh.params.wired) ∧
    (Wired clkHigh 2 ∧ 2 = clkHigh.devices - 1 ∧ 15 < 16) ∧ Wired clkHigh 0 ∧ 0 ≠ clkHigh.devices - 1 := by decide

theorem witness_LatchedWordRunsItsInstruction :
    decodeWire 0x0F0A = .ok (.wireIntensity 0x0F) := rfl

/-- LOAD low, with DIGIT0 0x80 in the one chip. -/
def beforeLatch : State :=
  { readyS 0 with level := ⟨false, false, false⟩, rx := ⟨chain8001, [], [], 0, 0⟩ }

/-- The positions of the shift register that hold a word, the last bit received first (R60). -/
def positions (w : Word) : List Bool := (List.range 16).map w.getLsbD

/-- LOAD low before its edge; of three chips the nearest holds DIGIT0 0x80, the next a RESERVED word, the farthest
a NOOP with data 0x7F (W2, W14, W16). -/
def edgeToCome : State :=
  { readyS 2 with
    level := ⟨false, false, false⟩
    rx := ⟨positions 0x8001 ++ positions 0x550D ++ positions 0x7F00, [], [], 0, 0⟩ }

theorem witness_ChipsActAtTheLatchEdgeAlone :
    (Pin.data ≠ .load ∨ true = false ∨ beforeLatch.level.load = true) ∧
    (beforeLatch.level.load = false ∧ 0 < beforeLatch.params.wired ∧
      chipWord beforeLatch.rx.chain 0 = wireWord 0x80 ChipReg.digit0.opcode) ∧
    edgeToCome.level.load = false ∧
    (2 < edgeToCome.params.wired ∧
      chipWord edgeToCome.rx.chain 2 = wireWord 0x7F Config.opNoop) ∧
    (1 < edgeToCome.params.wired ∧ decoded (decodeWire (chipWord edgeToCome.rx.chain 1)) = none) ∧
    (0 ≠ 1 ∧ 2 ≠ 1 ∧ 3 ≠ 1 ∧ 0 < edgeToCome.params.wired ∧ edgeToCome.params.wired ≤ 3) ∧
    decoded (decodeWire (chipWord edgeToCome.rx.chain 0)) = some (.wireDigit0 0x80) := by decide

/-- W2, W14, W16 at one latch edge: the RESERVED word leaves the chips beside it to their own words. -/
theorem test_latch_edge_reserved :
    chipReg (pin .load true edgeToCome) 0 .digit0 = 0x80 ∧ chipReg (pin .load true edgeToCome) 0 .digit1 = 0 ∧
    chipReg (pin .load true edgeToCome) 2 .digit0 = 0 :=
  ⟨latchEdge_reg 3 edgeToCome.rx 0 (by decide) .digit0 0x80 0x01 (by decide),
    latchEdge_reg 3 edgeToCome.rx 0 (by decide) .digit0 0x80 0x02 (by decide),
    latchEdge_noop 3 edgeToCome.rx 2 (by decide) 0x7F 0x01 (by decide)⟩

/-- Chip 1 of three has yet to act on a word. -/
def waiting (w : Word) : State :=
  (readyS 2).setRx { (readyS 2).rx with latched := [(1, w), (2, 0x0000)] }

theorem witness_StepRunsTheLatchedWord :
    (waiting 0x8001).rx.latched = (1, 0x8001) :: [(2, 0x0000)] ∧
    decodeWire 0x8001 = .ok (.wireDigit0 0x80) := ⟨rfl, rfl⟩

theorem witness_StepRunsThePresentedOperation :
    ((readyS 1).setPort [⟨4, 1, 15, 0, false⟩]).rx.latched = [] ∧
    ((readyS 1).setPort [⟨4, 1, 15, 0, false⟩]).micro = .idle ∧
    ((readyS 1).setPort [⟨4, 1, 15, 0, false⟩]).port = ⟨4, 1, 15, 0, false⟩ :: [] ∧
    decodeHost ⟨4, 1, 15, 0, false⟩ = .ok (.hostSetIntensity 1 15) := ⟨rfl, rfl, rfl, rfl⟩

theorem witness_ReservedOpcodeStaysInItsChip :
    ((waiting 0x550D).rx.latched = (1, 0x550D) :: [(2, 0x0000)] ∧
      decodeWire 0x550D = .error (.reservedOpcode 0x0D) ∧ 0 ≠ 1) ∧
    edgeToCome.level.load = false ∧ 1 < edgeToCome.params.wired ∧
    chipWord edgeToCome.rx.chain 1 = 0x550D ∧ 2 ≠ 1 := ⟨⟨rfl, rfl, by decide⟩, by decide⟩

theorem witness_StepWithoutAnInstruction :
    ((startFrame (readyS 0)).rx.latched = [] ∧ (startFrame (readyS 0)).micro ≠ .idle) ∧
    (readyS 0).rx.latched = [] ∧ (readyS 0).micro = .idle ∧ (readyS 0).port = [] := by decide

theorem witness_WriteCommandSendsItsFrame :
    Accepts (readyS 2) ∧ (0 : Int) ≤ 0 ∧ (0 : Int) < (readyS 2).devices ∧
    (0 : Int) ≤ 2 ∧ (2 : Int) < (readyS 2).devices := by decide

theorem witness_SetDecodeModeSendsItsFrame :
    Accepts (readyS 2) ∧ (0 : Int) ≤ 0 ∧ (0 : Int) < (readyS 2).devices ∧
    (0 : Int) ≤ 2 ∧ (2 : Int) < (readyS 2).devices := by decide

theorem witness_ShutdownSendsItsFrame :
    Accepts (readyS 2) ∧ (0 : Int) ≤ 0 ∧ (0 : Int) < (readyS 2).devices ∧
    (0 : Int) ≤ 2 ∧ (2 : Int) < (readyS 2).devices := by decide

theorem witness_DisplayTestSendsItsFrame :
    Accepts (readyS 2) ∧ (0 : Int) ≤ 0 ∧ (0 : Int) < (readyS 2).devices ∧
    (0 : Int) ≤ 2 ∧ (2 : Int) < (readyS 2).devices := by decide

theorem witness_ClearDisplayClearsItsDevice :
    Accepts (readyS 2) ∧ (0 : Int) ≤ 0 ∧ (0 : Int) < (readyS 2).devices ∧
    (0 : Int) ≤ 2 ∧ (2 : Int) < (readyS 2).devices := by decide

theorem witness_SetIntensitySendsItsFrame :
    Accepts (readyS 2) ∧ (0 : Int) ≤ 0 ∧ (0 : Int) < (readyS 2).devices ∧
    (0 : Int) ≤ 2 ∧ (2 : Int) < (readyS 2).devices ∧ (0 : Int) ≤ 0 ∧ (15 : Int) ≤ 15 := by decide

theorem witness_SetScanLimitSendsItsFrame :
    Accepts (readyS 2) ∧ (0 : Int) ≤ 0 ∧ (0 : Int) < (readyS 2).devices ∧
    (0 : Int) ≤ 2 ∧ (2 : Int) < (readyS 2).devices ∧ (0 : Int) ≤ 0 ∧ (7 : Int) ≤ 7 := by decide

theorem witness_SetLedSwitchesAndSends :
    Accepts (readyS 2) ∧ (0 : Int) ≤ 0 ∧ (0 : Int) < (readyS 2).devices ∧
    (0 : Int) ≤ 2 ∧ (2 : Int) < (readyS 2).devices ∧ (0 : Int) ≤ 0 ∧ (7 : Int) ≤ 7 := by decide

theorem witness_SetLedWritesOneLane :
    Accepts (readyS 2) ∧ (0 : Int) ≤ 0 ∧ (0 : Int) < (readyS 2).devices ∧
    (0 : Int) ≤ 2 ∧ (2 : Int) < (readyS 2).devices ∧ (0 : Int) ≤ 7 ∧ (7 : Int) ≤ 7 ∧ 7 < 8 ∧ 7 = (7 : Int).toNat ∧
    0 ≠ (7 : Int).toNat := by decide

theorem witness_SetLedOnThenOff :
    Accepts (readyS 2) ∧ (0 : Int) ≤ 0 ∧ (0 : Int) < (readyS 2).devices ∧
    (0 : Int) ≤ 2 ∧ (2 : Int) < (readyS 2).devices ∧ (0 : Int) ≤ 2 ∧ (2 : Int) ≤ 7 ∧ (0 : Int) ≤ 4 ∧ (4 : Int) ≤ 7 ∧
    shadowAt (readyS 2) 2 2 &&& (0x80#8 >>> 4) = 0 := by decide

theorem witness_ClearDisplaySize :
    Accepts (readyS 2) ∧ (0 : Int) ≤ 0 ∧ (0 : Int) < (readyS 2).devices ∧
    (0 : Int) ≤ 2 ∧ (2 : Int) < (readyS 2).devices ∧ 7 < 8 ∧ 5 < 2 * (readyS 2).devices := by decide

theorem witness_ColumnPatternByRows :
    Accepts (readyS 2) ∧ (0 : Int) ≤ 0 ∧ (0 : Int) < (readyS 2).devices ∧
    (0 : Int) ≤ 2 ∧ (2 : Int) < (readyS 2).devices ∧ (0 : Int) ≤ 0 ∧ (7 : Int) ≤ 7 ∧ 7 < 8 := by decide

theorem witness_StubsAnswerUnimplemented :
    Accepts ((readyS 0).setPort [⟨15, 0, 0, 0, false⟩]) ∧
    ((readyS 0).setPort [⟨15, 0, 0, 0, false⟩]).rx.latched = [] ∧
    ((readyS 0).setPort [⟨15, 0, 0, 0, false⟩]).port = ⟨15, 0, 0, 0, false⟩ :: [] ∧
    9 ≤ (15 : BitVec 4).toNat ∧ 9 ≤ (9 : BitVec 4).toNat := by decide

theorem witness_ConfigOperationsExpandToWriteCommand :
    (0 : Int) ≤ 2 ∧ (2 : Int) < (readyS 2).devices ∧ (0 : Int) ≤ 15 ∧ (15 : Int) ≤ 15 ∧
    (0 : Int) ≤ 7 ∧ (7 : Int) ≤ 7 := by decide

theorem witness_CommandReachesOneRegister :
    Accepts (readyS 2) ∧ (0 : Int) ≤ 0 ∧ (0 : Int) < (readyS 2).devices ∧
    (0 : Int) ≤ 2 ∧ (2 : Int) < (readyS 2).devices ∧ (readyS 2).level.clk = false ∧
    (readyS 2).rx.chain.length = 16 * (readyS 2).params.wired ∧ Wired (readyS 2) 0 ∧ Wired (readyS 2) 2 ∧
    (BitVec.ofInt 8 0x10A = ChipReg.intensity.opcode ∧ BitVec.ofInt 8 (-256) = Config.opNoop) ∧
    ((0 : Nat) : Int) ≠ 2 ∧ decoded (decodeWire (wireWord 0x55 (BitVec.ofInt 8 0x0D))) = none := by decide

/-- W16: a raw NOOP with data reaches no register of a chip. -/
theorem test_raw_noop : after (exec (.hostWriteCommand 1 0 0x7F) (readyS 2)) (fun t => t.rx.regs = []) := by
  decide

theorem witness_LedOperationsReachTheirRowRegisters :
    Accepts (readyS 2) ∧ (0 : Int) ≤ 0 ∧ (0 : Int) < (readyS 2).devices ∧
    (0 : Int) ≤ 2 ∧ (2 : Int) < (readyS 2).devices ∧ (readyS 2).level.clk = false ∧
    (readyS 2).rx.chain.length = 16 * (readyS 2).params.wired ∧ (0 : Int) ≤ 7 ∧ (7 : Int) ≤ 7 ∧
    Wired (readyS 2) 0 ∧ Wired (readyS 2) 2 := by decide

theorem witness_BufferIsRebuiltForEveryWrite :
    (0 : Int) ≤ 2 ∧ (2 : Int) < (readyS 2).devices ∧ 5 < 2 * (readyS 2).devices := by decide

theorem witness_InvalidDeviceIsDropped :
    Accepts (readyS 1) ∧ ((-1 : Int) < 0 ∨ ((readyS 1).devices : Int) ≤ -1) ∧
    ((2 : Int) < 0 ∨ ((readyS 1).devices : Int) ≤ 2) := by decide

theorem witness_InvalidRowOrColumnIsDropped :
    Accepts (readyS 2) ∧ (0 : Int) ≤ 0 ∧ (0 : Int) < (readyS 2).devices ∧
    (0 : Int) ≤ 2 ∧ (2 : Int) < (readyS 2).devices ∧ ((-1 : Int) < 0 ∨ 7 < (-1 : Int) ∨ (0 : Int) < 0 ∨ 7 < (0 : Int)) ∧
    ((7 : Int) < 0 ∨ 7 < (7 : Int) ∨ (8 : Int) < 0 ∨ 7 < (8 : Int)) := by decide

theorem witness_InvalidIntensityIsDropped :
    Accepts (readyS 2) ∧ (0 : Int) ≤ 0 ∧ (0 : Int) < (readyS 2).devices ∧
    (0 : Int) ≤ 2 ∧ (2 : Int) < (readyS 2).devices ∧ ((-1 : Int) < 0 ∨ 15 < (-1 : Int)) ∧ ((16 : Int) < 0 ∨ 15 < (16 : Int)) := by decide

theorem witness_InvalidScanLimitIsDropped :
    Accepts (readyS 2) ∧ (0 : Int) ≤ 0 ∧ (0 : Int) < (readyS 2).devices ∧
    (0 : Int) ≤ 2 ∧ (2 : Int) < (readyS 2).devices ∧ ((-1 : Int) < 0 ∨ 7 < (-1 : Int)) ∧ ((8 : Int) < 0 ∨ 7 < (8 : Int)) := by decide

/-- The power-on state of a chain of two with CLEAR_DISPLAY(0) presented. -/
def tooEarly : State := (State.powerOn ⟨1, 2, 5⟩).setPort [⟨1, 0, 0, 0, false⟩]

theorem witness_OnlyInitializeBeforeReady :
    (tooEarly.micro = .idle ∧ tooEarly.seq ≠ .ready ∧ tooEarly.seq = .powerOn) ∧
    (decodeHost ⟨1, 0, 0, 0, false⟩ = .ok (.hostClearDisplay 0) ∧
      Instr.hostClearDisplay 0 ≠ .hostInitialize) ∧
    (tooEarly.rx.latched = [] ∧ tooEarly.port = ⟨1, 0, 0, 0, false⟩ :: [] ∧ (1 : BitVec 4) ≠ 0) ∧
    ((tooEarly.setSeq .shutdownAll).seq ≠ .ready ∧ (tooEarly.setSeq .shutdownAll).seq ≠ .powerOn) := ⟨by decide, ⟨rfl, by decide⟩, by decide, by decide⟩

theorem witness_NoOperationWhileAFrameRuns :
    (startFrame (readyS 0)).micro ≠ .idle ∧
    decodeHost ⟨0, 0, 0, 0, false⟩ = .ok .hostInitialize := ⟨by decide, rfl⟩

theorem witness_EveryOperationEndsWithOneResult :
    Accepts (readyS 1) ∧ decodeHost ⟨8, 1, 0x0D, 0x55, false⟩ = .ok (.hostWriteCommand 1 0x0D 0x55) := ⟨by decide, rfl⟩

theorem witness_InitializeTrace :
    ((State.powerOn ⟨1, 2, 5⟩).micro = .idle ∧ (State.powerOn ⟨1, 2, 5⟩).seq = .powerOn) ∧
    (readyS 1).micro = .idle ∧ (readyS 1).seq = .ready := by decide

theorem witness_InitializeSize :
    ((State.powerOn ⟨1, 2, 5⟩).micro = .idle ∧ (State.powerOn ⟨1, 2, 5⟩).seq = .powerOn) ∧
    ((readyS 1).micro = .idle ∧ (readyS 1).seq = .ready) ∧ 4 ≠ (readyS 1).params.selfTestMs := by decide

theorem witness_InitializeLeavesReadyState :
    ((State.powerOn ⟨1, 2, 5⟩).micro = .idle ∧ (State.powerOn ⟨1, 2, 5⟩).seq = .powerOn) ∧
    (readyS 1).micro = .idle ∧ (readyS 1).seq = .ready ∧ 1 < (readyS 1).devices ∧ 7 < 8 ∧ 3 < 2 * (readyS 1).devices := by decide

theorem witness_InitializeConfiguresEveryChip :
    ((State.powerOn ⟨1, 2, 5⟩).micro = .idle ∧ (State.powerOn ⟨1, 2, 5⟩).seq = .powerOn) ∧
    (readyS 1).micro = .idle ∧ (readyS 1).seq = .ready ∧
    (State.powerOn ⟨1, 2, 5⟩).rx.chain.length = 16 * (State.powerOn ⟨1, 2, 5⟩).params.wired ∧
    Wired (State.powerOn ⟨1, 2, 5⟩) 1 := by decide

/-- Ready, SET_LED(1, 7, 7, on) presented. -/
def presented : State := (readyS 1).setPort [⟨5, 1, 7, 7, true⟩]

/-- A frame running, at the last phase of a bit. -/
def running : State :=
  { readyS 1 with level := ⟨true, true, false⟩, micro := .bit 1 .second 0 .clkLow }

theorem presented_inv : Inv presented := by constructor <;> first | decide | exact trivial

theorem running_inv : Inv running := by
  constructor <;> first | decide | (show _ ∧ _ ∧ _ ∧ _; decide)

theorem witness_StepKeepsInv :
    Inv presented ∧ (∃ t, step presented = .next t) ∧ Inv running ∧ ∃ t, step running = .next t := ⟨presented_inv, ⟨_, rfl⟩, running_inv, ⟨_, rfl⟩⟩

theorem witness_StepKeepsParams :
    ∃ t, step presented = .next t := ⟨_, rfl⟩

theorem witness_StepOnlyAppends :
    (∃ t, step presented = .next t) ∧ ∃ t, step running = .next t := ⟨⟨_, rfl⟩, ⟨_, rfl⟩⟩

theorem witness_ShadowMirrorsTheChips :
    Inv presented ∧ presented.seq = .ready ∧ presented.micro = .idle ∧ presented.rx.latched = [] ∧
    Mirrors presented ∧ presented.port = ⟨5, 1, 7, 7, true⟩ :: [] ∧ KeepsMirror ⟨5, 1, 7, 7, true⟩ ∧
    KeepsMirror ⟨8, 0, 0x0A, 0x08, false⟩ ∧ ∃ t, step presented = .next t := 
  ⟨presented_inv, rfl, rfl, rfl, fun _ _ _ _ => rfl, rfl, by unfold KeepsMirror; decide,
    by unfold KeepsMirror; decide, ⟨_, rfl⟩⟩

theorem witness_ChipsNeverInfluenceTheBlock :
    decodeHost ⟨5, 1, 7, 7, true⟩ = .ok (.hostSetLed 1 7 7 true) ∧
    ∃ t, exec (.hostSetLed 1 7 7 true) (readyS 1) = .next t := ⟨rfl, ⟨_, rfl⟩⟩

theorem witness_ConfigurationIsNotRemembered :
    Accepts (readyS 1) ∧ IsConfig (.hostSetIntensity 1 15) ∧ ∃ t u v, exec (.hostSetIntensity 1 15) (readyS 1) = .next t ∧
    decodeHost ⟨5, 1, 7, 7, true⟩ = .ok (.hostSetLed 1 7 7 true) ∧
    exec (.hostSetLed 1 7 7 true) (readyS 1) = .next u ∧ exec (.hostSetLed 1 7 7 true) t = .next v := 
  ⟨by decide, .inr (.inl ⟨1, 15, rfl⟩), _, _, _, rfl, rfl, rfl, rfl⟩

theorem witness_CanonicalArraysAreEqualData :
    Memory.wf [(1, 0x80), (9, 0x01)] ∧ ∀ a, Memory.read [(1, 0x80), (9, 0x01)] a =
      Memory.read (Memory.write (Memory.write [] 9 0x01) 1 0x80) a := ⟨by decide, fun _ => rfl⟩

end Sys2Proof.Tests
end

/-!
PROOFS of the scope statements (00_scope.md): the record of events and results only grows (R10, R67).
-/

namespace Sys2Proof.Machine

/-- Every position of a running frame makes exactly one pin event (R29). -/
theorem microStep_trace {s : State} (hm : s.micro ≠ .idle) :
    ∃ e, (microStep s).trace = s.trace ++ [e] := by
  unfold microStep
  split
  case h_1 hidle => exact absurd hidle hm
  all_goals exact ⟨_, rfl⟩

/-- A running frame hands no result to the caller. -/
@[simp] theorem microStep_results (s : State) : (microStep s).results = s.results := by
  unfold microStep
  split <;> rfl

/-- The events of INITIALIZE: those of the pin set-up, then those of its acts (R210 to R218). -/
theorem initEnd_trace (s : State) :
    (initEnd s).trace =
      s.trace ++ ([.dirOut .data, .dirOut .clk, .dirOut .load, .write .load true] ++
        (initActs s.devices s.params.selfTestMs).flatMap (Act.events s.devices)) := by
  rw [(initEnd_ran s).trace, initGround_trace, initGround_devices, List.append_assoc]

/-- Settles O56, over the kinds of step: a running frame adds one event, an operation adds the events of its acts and
one result, every other step adds no event. -/
theorem stepOnlyAppends : Obligations.StepOnlyAppends := by
  intro s t h
  cases step_next h with
  | word d w rest hl => exact ⟨[], [], (List.append_nil _).symm, (List.append_nil _).symm⟩
  | frame hl hm =>
    obtain ⟨e, he⟩ := microStep_trace hm
    exact ⟨[e], [], he, by simp⟩
  | idle hl hm hp => exact ⟨[], [], (List.append_nil _).symm, (List.append_nil _).symm⟩
  | reserved op rest hl hm hp hs =>
    exact ⟨[], [.unimplemented], (List.append_nil _).symm, rfl⟩
  | operation op rest i hl hm hp hd hi hs =>
    have hran := runActs_ran _ (s.setPort rest) (hostActs_ok s.devices s.shadow i)
    exact ⟨_, _, hran.trace, rfl⟩
  | initialized op rest hl hm hp hd hs => exact ⟨_, _, initEnd_trace (s.setPort rest), rfl⟩

end Sys2Proof.Machine

/-!
PROOFS of the state statements (10_state.md): the state at power-on, the parameters, a frame one event at a time, the
block at Ready, the invariant, and the shadow that mirrors the chips.
-/

namespace Sys2Proof.Machine

open Sys2Proof.Safety

/-! ## Power-on, and steps without an instruction -/

/-- Settles O52: every part is the value `State.powerOn` gives its field. -/
theorem powerOnState : Obligations.PowerOnState :=
  fun _ => ⟨rfl, rfl, rfl, rfl, rfl, rfl, rfl⟩

/-- With no word waiting a running frame acts next. -/
theorem fetch_frame {s : State} (hl : s.rx.latched = []) (hm : s.micro ≠ .idle) :
    fetch s = .frame s := by
  simp [fetch, hl, hm]

/-- With no word waiting, no frame running and an empty port nothing acts. -/
theorem fetch_idle {s : State} (hl : s.rx.latched = []) (hm : s.micro = .idle) (hp : s.port = []) :
    fetch s = .idle s := by
  simp [fetch, hl, hm, hp]

/-- Settles O23, by what is fetched in each of the two cases. -/
theorem stepWithoutAnInstruction : Obligations.StepWithoutAnInstruction := by
  intro s hl
  refine ⟨fun hm => ?_, fun hm hp => ?_⟩
  · rw [step, fetch_frame hl hm]
  · rw [step, fetch_idle hl hm hp]

/-! ## The parameters -/

/-- An event of a running frame is one pin write and a move of the position (R29). -/
theorem microStep_eq_pin {s : State} (hm : s.micro ≠ .idle) :
    ∃ p l m, microStep s = (pin p l s).setMicro m := by
  unfold microStep
  split
  case h_1 hidle => exact absurd hidle hm
  all_goals exact ⟨_, _, _, rfl⟩

/-- Settles O55, over the kinds of step. -/
theorem stepKeepsParams : Obligations.StepKeepsParams := by
  intro s t h
  cases step_next h with
  | word d w rest hl => rfl
  | frame hl hm =>
    obtain ⟨p, l, m, hpin⟩ := microStep_eq_pin hm
    rw [hpin, setMicro_params, pin_params]
  | idle hl hm hp => rfl
  | reserved op rest hl hm hp hs => rfl
  | operation op rest i hl hm hp hd hi hs => exact runActs_params _ (s.setPort rest)
  | initialized op rest hl hm hp hd hs => exact initEnd_params (s.setPort rest)

/-! ## A frame one event at a time -/

/-- The position after the last bit of a byte. -/
abbrev afterByte (slot : Nat) (half : SlotHalf) : MicroPos := afterBit slot half 0

theorem setMicro_self {s : State} {m : MicroPos} (h : s.micro = m) : s.setMicro m = s := by
  subst h; rfl

theorem microRun_add (j k : Nat) (s : State) : microRun (j + k) s = microRun k (microRun j s) := by
  induction j generalizing s with
  | zero => rw [Nat.zero_add]; rfl
  | succ j ih => rw [Nat.succ_add]; exact ih (microStep s)

theorem setMicro_setMicro (m m' : MicroPos) (s : State) :
    (s.setMicro m).setMicro m' = s.setMicro m' := by rfl

/-- A pin write neither reads nor moves the position. -/
theorem pin_setMicro (p : Pin) (l : Bool) (m : MicroPos) (s : State) :
    pin p l (s.setMicro m) = (pin p l s).setMicro m := by rfl

/-- The bytes of a slot are read from the buffer alone. -/
theorem slotByte_congr {s t : State} (h : t.txbuf = s.txbuf) (slot : Nat) (half : SlotHalf) :
    slotByte t slot half = slotByte s slot half := by
  cases half
  · rw [slotByte_first, slotByte_first, h]
  · rw [slotByte_second, slotByte_second, h]

/-- Three events are one bit (R29, R130). -/
theorem microRun_bit (slot : Nat) (half : SlotHalf) (i : Nat) (s : State) :
    microRun 3 (s.setMicro (.bit slot half i .setData)) =
      (sendBit ((slotByte s slot half).getLsbD i) s).setMicro (afterBit slot half i) := by
  simp only [microRun, microStep, setMicro_micro, pin_setMicro, setMicro_setMicro, sendBit,
    slotByte_congr (setMicro_txbuf s _)]

theorem sendBit_txbuf (b : Bool) (s : State) : (sendBit b s).txbuf = s.txbuf := by simp [sendBit]

theorem serializeByte_txbuf (v : Byte) (s : State) : (serializeByte v s).txbuf = s.txbuf := by
  rw [serializeByte_eq_sendAll, sendAll_txbuf]

/-- Three events for each of the bits `i` downto 0 of a byte. -/
theorem microRun_bits (slot : Nat) (half : SlotHalf) (i : Nat) (s : State) :
    microRun (3 * (i + 1)) (s.setMicro (.bit slot half i .setData)) =
      (sendBits (slotByte s slot half) (i + 1) s).setMicro (afterByte slot half) := by
  induction i generalizing s with
  | zero => exact microRun_bit slot half 0 s
  | succ i ih =>
    rw [show 3 * (i + 1 + 1) = 3 + 3 * (i + 1) by omega, microRun_add, microRun_bit]
    exact (ih _).trans (by rw [slotByte_congr (sendBit_txbuf _ s), ← sendBits])

/-- 24 events are one byte (R131). -/
theorem microRun_byte (slot : Nat) (half : SlotHalf) (s : State) :
    microRun 24 (s.setMicro (.bit slot half 7 .setData)) =
      (serializeByte (slotByte s slot half) s).setMicro (afterByte slot half) :=
  microRun_bits slot half 7 s

/-- 48 events are one slot (R141). -/
theorem microRun_slot (slot : Nat) (s : State) :
    microRun 48 (s.setMicro (.bit slot .first 7 .setData)) =
      (sendSlot slot s).setMicro (afterByte slot .second) := by
  rw [show 48 = 24 + 24 from rfl, microRun_add, microRun_byte]
  exact (microRun_byte slot .second _).trans (by rw [slotByte_congr (serializeByte_txbuf _ s), sendSlot])

/-- 48 events for each of the slots `k` downto 0 (R141). -/
theorem microRun_slots (k : Nat) (s : State) :
    microRun (48 * (k + 1)) (s.setMicro (.bit k .first 7 .setData)) =
      (sendSlots (k + 1) s).setMicro .loadHigh := by
  induction k generalizing s with
  | zero => exact microRun_slot 0 s
  | succ k ih =>
    rw [show 48 * (k + 1 + 1) = 48 + 48 * (k + 1) by omega, microRun_add, microRun_slot]
    exact ih (sendSlot (k + 1) s)

/-- A whole frame from its start: LOAD low, the slots, LOAD high (R29, R141). -/
theorem microRun_frame (s : State) :
    microRun (48 * s.devices + 2) (startFrame s) = (transmitChain s).setMicro .idle := by
  rw [show 48 * s.devices + 2 = 1 + (48 * s.devices + 1) by omega, microRun_add, microRun_add]
  have hlow : microRun 1 (startFrame s) =
      (pin .load false s).setMicro (.bit s.params.farthest .first 7 .setData) := by
    simp only [microRun, microStep, startFrame, setMicro_micro, setMicro_params, pin_setMicro,
      setMicro_setMicro]
  have hhigh (t : State) : microRun 1 (t.setMicro .loadHigh) = (pin .load true t).setMicro .idle := by
    simp only [microRun, microStep, setMicro_micro, pin_setMicro, setMicro_setMicro]
  rw [hlow, show s.devices = s.params.farthest + 1 from rfl, microRun_slots, hhigh, transmitChain,
    show s.devices = s.params.farthest + 1 from rfl]

/-- Settles O11: the whole frame ends with no frame running, as it was before. -/
theorem microStepsRefineTransmitChain : Obligations.MicroStepsRefineTransmitChain := by
  intro s hm
  rw [microRun_frame, setMicro_self (by rw [transmitChain_micro, hm])]

/-! ## The block at Ready -/

/-- A byte that no act of a list stores to reads as before. -/
theorem read_shadowAfter_of_not_stored {l : List Act} {a : Nat}
    (hn : ∀ d r v, Act.store d r v ∈ l → a ≠ shadowKey d r) (m : Memory) :
    (l.foldl Act.shadowAfter m).read a = m.read a := by
  induction l generalizing m with
  | nil => rfl
  | cons act l ih =>
    rw [List.foldl_cons, ih fun d r v h => hn d r v (List.mem_cons_of_mem _ h)]
    cases act with
    | store d r v =>
      rw [Act.shadowAfter, Memory.read_write, if_neg (hn d r v (List.mem_cons_self ..))]
    | cmd d o v => rfl
    | goto q => rfl
    | wait n => rfl

/-- A byte that reads 0, or that an act of a list stores to, reads 0 after a list whose stores all store 0. -/
theorem read_shadowAfter_zero {l : List Act} (hz : ∀ d r v, Act.store d r v ∈ l → v = 0) {m : Memory}
    {a : Nat} (ha : m.read a = 0 ∨ ∃ d r v, Act.store d r v ∈ l ∧ a = shadowKey d r) :
    (l.foldl Act.shadowAfter m).read a = 0 := by
  induction l generalizing m with
  | nil => simpa using ha
  | cons act l ih =>
    refine ih (fun d r v h => hz d r v (List.mem_cons_of_mem _ h)) ?_
    cases act with
    | store d r v =>
      obtain rfl := hz d r v (List.mem_cons_self ..)
      rw [Act.shadowAfter, Memory.read_write]
      by_cases hk : a = shadowKey d r
      · exact .inl (if_pos hk)
      · rw [if_neg hk]
        refine ha.imp_right fun ⟨d', r', v', hmem, ha'⟩ => ⟨d', r', v', ?_, ha'⟩
        rcases List.mem_cons.mp hmem with heq | hmem
        · cases heq; exact absurd ha' hk
        · exact hmem
    | cmd d o v => simpa [Act.shadowAfter] using ha
    | goto q => simpa [Act.shadowAfter] using ha
    | wait n => simpa [Act.shadowAfter] using ha

theorem mem_clearActs {d : Nat} {rows : List Nat} {a : Act} :
    a ∈ clearActs d rows ↔ ∃ r ∈ rows, a = .store d r 0 ∨ a = .cmd d (Config.opDigit r) 0 := by
  simp [clearActs]

theorem mem_rowList {r : Nat} : r ∈ rowList ↔ r < 8 := by
  simp only [rowList, List.mem_cons, List.not_mem_nil, or_false]; omega

/-- INITIALIZE clears every row of every device (R214). -/
theorem clearActs_subset_initActs {d n : Nat} (hd : d < n) (ms : Nat) :
    clearActs d rowList ⊆ initActs n ms := by
  intro a ha
  have hc : a ∈ configureActs d := by simp [configureActs, ha]
  have hh : a ∈ initHead n :=
    List.mem_cons_of_mem _ (List.mem_append_right _ (List.mem_flatMap.mpr ⟨d, List.mem_range.mpr hd, hc⟩))
  exact List.mem_append_left _ hh

/-- A store of INITIALIZE stores 0 at a byte of the shadow. -/
theorem store_mem_initActs {n ms d r : Nat} {v : Byte} (h : Act.store d r v ∈ initActs n ms) :
    d < n ∧ r < 8 ∧ v = 0 := by
  rcases mem_initActs h with ⟨q, hq⟩ | ⟨k, hk⟩ | ⟨d', r', hd, hr, he⟩ | ⟨d', reg, v', _, he⟩
  · cases hq
  · cases hk
  · cases he; exact ⟨hd, hr, rfl⟩
  · cases he

/-- INITIALIZE leaves the bytes beyond the shadow. -/
theorem initEnd_shadow_beyond {s : State} {a : Nat} (ha : 8 * s.devices ≤ a) :
    (initEnd s).shadow.read a = s.shadow.read a := by
  rw [(initEnd_ran s).shadow, initGround_shadow]
  refine read_shadowAfter_of_not_stored (fun d r v h => ?_) _
  obtain ⟨hd, hr, _⟩ := store_mem_initActs h
  unfold shadowKey; omega

/-- Every byte of the shadow reads 0 after INITIALIZE (R36). -/
theorem shadowAt_initEnd {s : State} {d r : Nat} (hd : d < s.devices) (hr : r < 8) :
    shadowAt (initEnd s) d r = 0 := by
  rw [shadowAt, (initEnd_ran s).shadow]
  refine read_shadowAfter_zero (fun d r v h => (store_mem_initActs h).2.2) (.inr ⟨d, r, 0, ?_, rfl⟩)
  exact clearActs_subset_initActs hd _ (mem_clearActs.mpr ⟨r, mem_rowList.mpr hr, .inl rfl⟩)

/-- The buffer after INITIALIZE: that of the last frame (R36, R219). -/
theorem initEnd_txbuf {s : State} {i : Nat} (hi : i < 2 * s.devices) :
    (initEnd s).txbuf.read i =
      if i = 2 * (s.devices - 1) + 1 then Config.opDisplayTest else 0 := by
  obtain ⟨m, hm, hsent⟩ := initEnd_last s
  rw [hsent.txbuf i (by rw [hm]; exact hi), show s.params.farthest = s.devices - 1 from rfl]
  split
  · rw [if_neg (by omega)]
  · rfl

theorem initEnd_beyond {s : State} {i : Nat} (hi : 2 * s.devices ≤ i) :
    (initEnd s).txbuf.read i = s.txbuf.read i := by
  rw [(initEnd_ran s).beyond i (by rw [initGround_devices]; exact hi), initGround_txbuf]

/-- The levels after INITIALIZE: those the last frame leaves (R36, R142 (e)). -/
theorem initEnd_level (s : State) :
    (initEnd s).level =
      ⟨if s.devices = 1 then Config.opDisplayTest.getLsbD 0 else false, false, true⟩ := by
  obtain ⟨m, _, hsent⟩ := initEnd_last s
  have hone : s.devices = 1 ↔ s.params.farthest = 0 := Nat.succ_inj
  rw [hsent.level, if_congr hone rfl rfl]

/-- Settles O50, field by field of the state in which INITIALIZE ends. -/
theorem initializeLeavesReadyState : Obligations.InitializeLeavesReadyState := by
  intro s hm hs
  refine ⟨_, exec_hostInitialize hm hs, fun d r hd hr => ?_, fun a ha => ?_, fun i hi => ?_,
    fun i hi => ?_, ?_, ?_, ?_, ?_, ?_, ?_⟩
  · rw [shadowAt, setResults_shadow, ← shadowAt, shadowAt_initEnd hd hr]
  · rw [setResults_shadow, initEnd_shadow_beyond ha]
  · rw [txbufAt, setResults_txbuf, initEnd_txbuf hi]
  · rw [txbufAt, setResults_txbuf, initEnd_beyond hi, txbufAt]
  · rw [setResults_dir, initEnd_dir]
  · rw [setResults_level, initEnd_level]
  · rw [setResults_seq, initEnd_seq]
  · rw [setResults_params, initEnd_params]
  · rw [setResults_micro, initEnd_micro]
  · rw [setResults_port, initEnd_port]

/-! ## The invariant -/

theorem shaped_of_inv {s : State} (h : Inv s) : Shaped s :=
  ⟨h.shadowWf, h.shadowBelow, h.txbufWf, h.txbufBelow, h.regsWf, h.regsBelow, h.chain, h.latched⟩

/-- The invariant is the form of the arrays and what it says of the position and of the sequencer. -/
theorem inv_of_shaped {s : State} (h : Shaped s) (hpos : PositionOk s)
    (hseq : s.seq = .powerOn ∨ s.seq = .ready)
    (hidle : s.micro = .idle → s.seq = .ready → s.level.clk = false ∧ s.level.load = true)
    (hdir : s.seq = .ready → s.dir = ⟨.out, .out, .out⟩) : Inv s :=
  ⟨h.shadowWf, h.shadowBelow, h.txbufWf, h.txbufBelow, h.regsWf, h.regsBelow, h.chain, h.latched, hpos,
    hseq, fun hs hm => (hidle hm hs).1, fun hs hm => (hidle hm hs).2, hdir⟩

/-- The invariant where the block accepts an operation: the form of the arrays, the idle levels, the outputs. -/
theorem inv_of_accepts {s : State} (ha : Accepts s) (h : Shaped s) (hclk : s.level.clk = false)
    (hload : s.level.load = true) (hdir : s.dir = ⟨.out, .out, .out⟩) : Inv s :=
  inv_of_shaped h (by rw [PositionOk, ha.2]; trivial) (.inr ha.1) (fun _ _ => ⟨hclk, hload⟩)
    (fun _ => hdir)

/-- The form of the arrays says nothing of the port, the results, the position, the trace or the levels. -/
theorem Shaped.congr {s t : State} (h : Shaped s) (hp : t.params = s.params) (hsh : t.shadow = s.shadow)
    (htx : t.txbuf = s.txbuf) (hrx : t.rx = s.rx) : Shaped t := by
  obtain ⟨h1, h2, h3, h4, h5, h6, h7, h8⟩ := h
  constructor <;> simpa only [State.devices, hp, hsh, htx, hrx]

/-- A chip that acts on a waiting word keeps the form of the arrays (R62). -/
theorem Shaped.takeWord {s : State} (h : Shaped s) {d : Nat} {w : Word} {rest : List (Nat × Word)}
    (hl : s.rx.latched = (d, w) :: rest) :
    Shaped (s.setRx (takeWord { s.rx with latched := rest } (d, w))) := by
  have honly := takeWord_onlyChip { s.rx with latched := rest } d w
  have hd : d < s.params.wired := h.latched (d, w) (hl ▸ List.mem_cons_self ..)
  refine ⟨h.shadowWf, h.shadowBelow, h.txbufWf, h.txbufBelow, honly.wf h.regsWf,
    honly.below _ (by simp only [setRx_params]; omega) h.regsBelow, honly.chain ▸ h.chain, fun dw hdw => ?_⟩
  rw [setRx_rx, honly.latched] at hdw
  exact h.latched dw (hl ▸ List.mem_cons_of_mem _ hdw)

/-- After a bit, with CLK and LOAD low, the frame stands at a position that exists (R29). -/
theorem positionOk_afterBit {s : State} {slot i : Nat} (half : SlotHalf) (hslot : slot < s.devices)
    (hi : i < 8) (hload : s.level.load = false) (hclk : s.level.clk = false) :
    PositionOk (s.setMicro (afterBit slot half i)) := by
  match i, half, slot with
  | i + 1, half, slot => exact ⟨hslot, by omega, hload, hclk⟩
  | 0, .first, slot => exact ⟨hslot, by omega, hload, hclk⟩
  | 0, .second, slot + 1 => exact ⟨Nat.lt_of_succ_lt hslot, by omega, hload, hclk⟩
  | 0, .second, 0 => exact ⟨hload, hclk⟩

/-- One event takes a frame from a position that exists to one that exists (R29). -/
theorem positionOk_microStep {s : State} (h : PositionOk s) : PositionOk (microStep s) := by
  unfold PositionOk at h
  unfold microStep
  split
  · next hm => rw [PositionOk, hm]; trivial
  · next hm => rw [hm] at h; exact ⟨Nat.lt_succ_self _, by omega, rfl, h⟩
  · next slot half i hm => rw [hm] at h; exact h
  · next slot half i hm =>
    rw [hm] at h
    obtain ⟨hslot, hi, hload, _⟩ := h
    exact ⟨hslot, hi, hload, rfl⟩
  · next slot half i hm =>
    rw [hm] at h
    obtain ⟨hslot, hi, hload, _⟩ := h
    exact positionOk_afterBit half hslot hi hload rfl
  · trivial

/-- The event that ends a frame leaves CLK low and LOAD high (R142 (e)). -/
theorem microStep_idle_levels {s : State} (h : PositionOk s) (hm : s.micro ≠ .idle)
    (hend : (microStep s).micro = .idle) :
    (microStep s).level.clk = false ∧ (microStep s).level.load = true := by
  cases hpos : s.micro with
  | idle => exact absurd hpos hm
  | loadLow => simp [microStep, hpos] at hend
  | bit slot half i phase =>
    cases phase with
    | setData => simp [microStep, hpos] at hend
    | clkHigh => simp [microStep, hpos] at hend
    | clkLow =>
      simp only [microStep, hpos, setMicro_micro] at hend
      unfold afterBit at hend
      split at hend <;> cases hend
  | loadHigh =>
    rw [PositionOk, hpos] at h
    simp [microStep, hpos, PerPin.put, h.2]

/-- The acts of an operation keep the invariant where it is accepted: each command ends with the pins idle. -/
theorem inv_runActs {s : State} (h : Inv s) (ha : Accepts s) {l : List Act}
    (hok : ∀ a ∈ l, a.Ok s.devices) (hq : ∀ a ∈ l, ∀ q, a ≠ Act.goto q) (port : List HostOp)
    (rs : List Result) : Inv ((runActs l (s.setPort port)).setResults rs) := by
  have hran := runActs_ran l (s.setPort port) hok
  have hshaped : Shaped (s.setPort port) := (shaped_of_inv h).congr rfl rfl rfl rfl
  refine inv_of_accepts ⟨?_, hran.micro.trans ha.2⟩ ((hran.shaped hshaped).congr rfl rfl rfl rfl)
    (hran.clk (h.idleClk ha.1 ha.2)) (hran.load (h.idleLoad ha.1 ha.2))
    (hran.dir.trans (h.outputs ha.1))
  rw [setResults_seq, hran.seq, seqAfter_quiet hq]
  exact ha.1

/-- The pins set up and LOAD written high: three changes of levels and one pin write (R211, R212). -/
theorem Shaped.initGround {s : State} (h : Shaped s) : Shaped (initGround s) := by
  rw [initGround_eq]
  exact Shaped.onPinWrite (h.congr (by simp [gotoSeq]) (by simp [gotoSeq]) (by simp [gotoSeq])
    (by simp [gotoSeq])) .load true

/-- INITIALIZE ends with the invariant, whatever the pins held before it. -/
theorem inv_initEnd {s : State} (h : Shaped s) (hm : s.micro = .idle) (rs : List Result) :
    Inv ((initEnd s).setResults rs) := by
  have hshaped : Shaped (initEnd s) := (initEnd_ran s).shaped h.initGround
  refine inv_of_accepts ⟨?_, ?_⟩ (hshaped.congr (setResults_params _ _) (setResults_shadow _ _)
    (setResults_txbuf _ _) (setResults_rx _ _)) ?_ ?_ ?_
  · rw [setResults_seq, initEnd_seq]
  · rw [setResults_micro, initEnd_micro, hm]
  · rw [setResults_level, initEnd_level]
  · rw [setResults_level, initEnd_level]
  · rw [setResults_dir, initEnd_dir]

/-- Settles O54, over the kinds of step. -/
theorem stepKeepsInv : Obligations.StepKeepsInv := by
  intro s t h hstep
  have hshaped := shaped_of_inv h
  cases step_next hstep with
  | word d w rest hl =>
    exact inv_of_shaped (hshaped.takeWord hl) h.position h.seq
      (fun hm hs => ⟨h.idleClk hs hm, h.idleLoad hs hm⟩) h.outputs
  | frame hl hm =>
    have hpos := positionOk_microStep h.position
    have hend := microStep_idle_levels h.position hm
    obtain ⟨p, l, m, hpin⟩ := microStep_eq_pin hm
    rw [hpin] at hpos hend ⊢
    exact inv_of_shaped ((hshaped.onPinWrite p l).congr rfl rfl rfl rfl) hpos h.seq
      (fun hm' _ => hend hm') h.outputs
  | idle hl hm hp => exact h
  | reserved op rest hl hm hp hs => exact inv_runActs h ⟨hs, hm⟩ (l := []) (by simp) (by simp) rest _
  | operation op rest i hl hm hp hd hi hs =>
    exact inv_runActs h ⟨hs, hm⟩ (hostActs_ok _ _ i) (hostActs_quiet _ _ i) rest _
  | initialized op rest hl hm hp hd hs =>
    exact inv_initEnd (s := s.setPort rest) (hshaped.congr rfl rfl rfl rfl) hm _

/-! ## The shadow mirrors the chips -/

theorem digitReg_opcode {r : Nat} (hr : r < 8) : (digitReg r).opcode = Config.opDigit r := by
  interval_cases r <;> rfl

theorem opDigit_inj {r q : Nat} (hr : r < 8) (hq : q < 8) :
    Config.opDigit r = Config.opDigit q ↔ r = q := by
  refine ⟨fun h => ?_, fun h => h ▸ rfl⟩
  have := congrArg BitVec.toNat h
  simp only [Config.opDigit, BitVec.toNat_ofNat] at this
  omega

theorem digitReg_inj {r q : Nat} (hr : r < 8) (hq : q < 8) : digitReg r = digitReg q ↔ r = q := by
  rw [← opcode_inj, digitReg_opcode hr, digitReg_opcode hq, opDigit_inj hr hq]

/-- The opcode names no row. -/
abbrev NoRow (o : Byte) : Prop := ∀ r, r < 8 → o ≠ Config.opDigit r

/-- A command that names no row writes to no row register. -/
theorem writes_row_none {d e r : Nat} {o v : Byte} (ho : NoRow o) (hr : r < 8) :
    (Act.cmd d o v).writes e (digitReg r) = none := by
  rw [Act.writes, if_neg fun h => ho r hr (h.2.trans (digitReg_opcode hr))]

/-- A raw write that keeps the mirror names no row, and its opcode is not RESERVED (R148, R273). -/
theorem keepsMirror_opcode {op : HostOp} (hk : KeepsMirror op) (hsel : op.sel = 8) (d : Nat) (v : Byte) :
    NoRow (trunc8 op.a) ∧ (Act.cmd d (trunc8 op.a) v).Named := by
  rcases hk hsel with h | h | h | h | h | h <;> rw [h]
  · exact ⟨by decide, .inl rfl⟩
  · exact ⟨by decide, .inr ⟨.decodeMode, rfl⟩⟩
  · exact ⟨by decide, .inr ⟨.intensity, rfl⟩⟩
  · exact ⟨by decide, .inr ⟨.scanLimit, rfl⟩⟩
  · exact ⟨by decide, .inr ⟨.shutdown, rfl⟩⟩
  · exact ⟨by decide, .inr ⟨.displayTest, rfl⟩⟩

/-- The one selector and operand a raw write is decoded from (R85, R86). -/
theorem decodeHost_writeCommand {op : HostOp} {device opcode value : Int}
    (h : decodeHost op = .ok (.hostWriteCommand device opcode value)) : op.sel = 8 ∧ opcode = op.a := by
  unfold decodeHost at h
  split at h <;> cases h
  next hsel => exact ⟨BitVec.eq_of_toNat_eq hsel, rfl⟩

/-- The state between two commands of an operation: CLK low, the chain of its length, and the shadow says what the
row registers hold. -/
structure Synced (s : State) : Prop where
  clk : s.level.clk = false
  chain : s.rx.chain.length = 16 * s.params.wired
  mirrors : Mirrors s

theorem wired_runActs {l : List Act} {s : State} {e : Nat} : Wired (runActs l s) e ↔ Wired s e := by
  rw [Wired, runActs_devices, runActs_params]

section Synced

variable {s : State} (h : Synced s)

include h

/-- A command that names no row and is not RESERVED keeps the mirror. -/
theorem Synced.command {d : Nat} {o v : Byte} (hd : d < s.devices) (ho : NoRow o)
    (hn : (Act.cmd d o v).Named) : Synced (runActs [.cmd d o v] s) where
  clk := Act.run_clk (a := .cmd d o v) h.clk
  chain := by rw [runActs_params]; exact sendCommand_chain_length o v hd h.chain
  mirrors e r he hr := by
    rw [wired_runActs] at he
    have hchip := Act.run_chipReg (a := .cmd d o v) hd hn h.clk h.chain he (digitReg r)
    rw [writes_row_none ho hr] at hchip
    have hshadow : shadowAt (runActs [.cmd d o v] s) e r = shadowAt s e r := by
      rw [shadowAt, shadowAt, runActs_cons, runActs_nil, Act.run_shadow, Act.shadowAfter]
    rw [hshadow, h.mirrors e r he hr]
    exact hchip.symm

/-- A shadow byte and the command that sends it keep the mirror (R23). -/
theorem Synced.row {d q : Nat} (v : Byte) (hd : d < s.devices) (hq : q < 8) :
    Synced (runActs [.store d q v, .cmd d (Config.opDigit q) v] s) where
  clk := Act.run_clk (a := .cmd d _ v) (s := writeShadow d q v s) h.clk
  chain := by
    rw [runActs_params]
    exact sendCommand_chain_length (s := writeShadow d q v s) _ v hd h.chain
  mirrors e r he hr := by
    rw [wired_runActs] at he
    have hchip := sendCommand_chipReg (s := writeShadow d q v s) v (digitReg q) (digitReg r) hd he
      h.clk h.chain
    rw [digitReg_opcode hq, if_congr (and_congr_right' (digitReg_inj hr hq)) rfl rfl] at hchip
    have hshadow : shadowAt (runActs [.store d q v, .cmd d (Config.opDigit q) v] s) e r =
        if e = d ∧ r = q then v else shadowAt s e r := by
      rw [← if_congr (shadowKey_inj hr hq) rfl rfl, shadowAt, runActs_cons, runActs_cons, runActs_nil,
        Act.run_shadow, Act.run_shadow, Act.shadowAfter, Act.shadowAfter, Memory.read_write, shadowAt]
    rw [hshadow, h.mirrors e r he hr]
    exact hchip.symm

/-- CLEAR_DISPLAY keeps the mirror after every row (R160). -/
theorem Synced.clear {d : Nat} (hd : d < s.devices) {rows : List Nat} (hrows : ∀ r ∈ rows, r < 8) :
    Synced (runActs (clearActs d rows) s) := by
  induction rows generalizing s with
  | nil => exact h
  | cons r rows ih =>
    rw [show clearActs d (r :: rows) =
      [.store d r 0, .cmd d (Config.opDigit r) 0] ++ clearActs d rows from rfl, runActs_append]
    exact ih (h.row 0 hd (hrows r (List.mem_cons_self ..))) (by rw [runActs_devices]; exact hd)
      (fun q hq => hrows q (List.mem_cons_of_mem _ hq))

theorem Synced.onDevice {device : Int} {go : List Act × Result}
    (hgo : validDevice s.devices device = true → Synced (runActs go.1 s)) :
    Synced (runActs (onDevice s.devices device go).1 s) := by
  unfold Machine.onDevice
  split
  · next hv => exact hgo hv
  · exact h

theorem Synced.onValue {hi z : Int} {go : List Act × Result}
    (hgo : inRange hi z = true → Synced (runActs go.1 s)) :
    Synced (runActs (onValue hi z go).1 s) := by
  unfold Machine.onValue
  split
  · next hv => exact hgo hv
  · exact h

/-- The command of a configuration operation keeps the mirror. -/
theorem Synced.config (reg : ChipReg) (hreg : NoRow reg.opcode) (v : Byte) {device : Int}
    (hv : validDevice s.devices device = true) :
    Synced (runActs (oneCommand device reg.opcode v).1 s) :=
  h.command (validDevice_toNat hv) hreg (.inr ⟨reg, rfl⟩)

/-- Every operation but INITIALIZE and the raw writes left out keeps the mirror (R23, R71). -/
theorem Synced.hostActs {op : HostOp} {i : Instr} (hd : decodeHost op = .ok i) (hk : KeepsMirror op) :
    Synced (runActs (hostActs s.devices s.shadow i).1 s) := by
  cases i with
  | hostClearDisplay device =>
    exact h.onDevice fun hv => h.clear (validDevice_toNat hv) fun r hr => mem_rowList.mp hr
  | hostDisplayTest device enabled =>
    exact h.onDevice (h.config .displayTest (by decide) _)
  | hostSetDecodeMode device mode =>
    exact h.onDevice (h.config .decodeMode (by decide) _)
  | hostSetIntensity device level =>
    exact h.onDevice fun hv => h.onValue fun _ => h.config .intensity (by decide) _ hv
  | hostSetLed device row column state =>
    refine h.onDevice fun hv => h.onValue fun hrow => h.onValue fun _ => ?_
    exact h.row _ (validDevice_toNat hv) (by rw [inRange_iff] at hrow; omega)
  | hostSetScanLimit device limit =>
    exact h.onDevice fun hv => h.onValue fun _ => h.config .scanLimit (by decide) _ hv
  | hostShutdown device enabled =>
    exact h.onDevice (h.config .shutdown (by decide) _)
  | hostWriteCommand device opcode value =>
    obtain ⟨hsel, rfl⟩ := decodeHost_writeCommand hd
    refine h.onDevice fun hv => ?_
    obtain ⟨ho, hn⟩ := keepsMirror_opcode hk hsel device.toNat (trunc8 value)
    exact h.command (validDevice_toNat hv) ho hn
  | _ => exact h

end Synced

/-- The last write is the first one found from the end. -/
theorem lastWrite_eq_findSome (e : Nat) (reg : ChipReg) (l : List Act) :
    lastWrite e reg l = l.reverse.findSome? (Act.writes e reg) := by
  induction l with
  | nil => rfl
  | cons a l ih =>
    rw [lastWrite, ih, List.reverse_cons, List.findSome?_append]
    cases h : a.writes e reg <;> simp [h]

/-- A register to which a list of acts sends one value alone, at least once, takes that value. -/
theorem lastWrite_eq_some {e : Nat} {reg : ChipReg} {l : List Act} {v : Byte}
    (hall : ∀ a ∈ l, ∀ w, a.writes e reg = some w → w = v) (hex : ∃ a ∈ l, a.writes e reg = some v) :
    lastWrite e reg l = some v := by
  rw [lastWrite_eq_findSome]
  cases hf : l.reverse.findSome? (Act.writes e reg) with
  | none =>
    obtain ⟨a, ha, hv⟩ := hex
    rw [List.findSome?_eq_none_iff] at hf
    exact absurd (hf a (List.mem_reverse.mpr ha)) (by simp [hv])
  | some w =>
    obtain ⟨a, ha, hw⟩ := List.exists_of_findSome?_eq_some hf
    rw [hall a (List.mem_reverse.mp ha) w hw]

/-- The act is no command to a row, or it clears the row. -/
def Act.ClearsRows : Act → Prop
  | .cmd _ o v => v = 0 ∨ NoRow o
  | .store _ _ _ => True
  | .goto _ => True
  | .wait _ => True

theorem Act.ClearsRows.writes_eq_zero {a : Act} (h : a.ClearsRows) {e r : Nat} (hr : r < 8) {w : Byte}
    (hw : a.writes e (digitReg r) = some w) : w = 0 := by
  cases a with
  | cmd d o v =>
    rcases h with rfl | ho
    · rw [Act.writes] at hw
      split at hw <;> cases hw
      rfl
    · rw [writes_row_none ho hr] at hw; cases hw
  | store d r v => cases hw
  | goto q => cases hw
  | wait n => cases hw

theorem shutdownActs_clearsRows (d : Nat) : ∀ a ∈ shutdownActs d, a.ClearsRows := by
  simp only [shutdownActs, List.forall_mem_singleton]
  exact .inr (by decide)

theorem configureActs_clearsRows (d : Nat) : ∀ a ∈ configureActs d, a.ClearsRows := by
  have hhead : ∀ a ∈ configureHead d, a.ClearsRows := by
    simp only [configureHead, List.forall_mem_cons]
    exact ⟨trivial, .inl rfl, trivial, .inr (by decide), trivial, .inl rfl, trivial, by simp⟩
  have htail : ∀ a ∈ configureTail d, a.ClearsRows := by
    simp only [configureTail, List.forall_mem_cons]
    exact ⟨trivial, .inr (by decide), trivial, .inl rfl, by simp⟩
  have hclear : ∀ a ∈ clearActs d rowList, a.ClearsRows := by
    intro a ha
    obtain ⟨r, _, rfl | rfl⟩ := mem_clearActs.mp ha
    · trivial
    · exact .inl rfl
  simp only [configureActs, List.forall_mem_append]
  exact ⟨⟨hhead, hclear⟩, htail⟩

theorem selfTestActs_clearsRows (ms d : Nat) : ∀ a ∈ selfTestActs ms d, a.ClearsRows := by
  simp only [selfTestActs, List.forall_mem_cons]
  exact ⟨.inr (by decide), trivial, .inl rfl, by simp⟩

/-- Every command INITIALIZE sends to a row clears it (R214). -/
theorem initActs_clearsRows (n ms : Nat) : ∀ a ∈ initActs n ms, a.ClearsRows := by
  intro a h
  simp only [initActs, initHead, List.mem_append, List.mem_cons, List.mem_flatMap, List.not_mem_nil,
    or_false] at h
  rcases h with (rfl | ⟨d, _, h⟩ | ⟨d, _, h⟩) | rfl | ⟨d, _, h⟩ | rfl
  · trivial
  · exact shutdownActs_clearsRows d a h
  · exact configureActs_clearsRows d a h
  · trivial
  · exact selfTestActs_clearsRows ms d a h
  · trivial

/-- INITIALIZE's acts up to its first frame, the SHUTDOWN of device 0 (R213). -/
def initFirst : List Act := [.goto .shutdownAll, .cmd 0 Config.opShutdown 1]

theorem initActs_first {n : Nat} (hn : 0 < n) (ms : Nat) :
    ∃ rest, initActs n ms = initFirst ++ rest := by
  obtain ⟨k, rfl⟩ := Nat.exists_eq_succ_of_ne_zero hn.ne'
  rw [initActs, initHead, List.range_succ_eq_map, List.flatMap_cons]
  exact ⟨_, rfl⟩

theorem runActs_initFirst_clk (s : State) : (runActs initFirst s).level.clk = false := by
  simp only [initFirst, runActs_cons, runActs_nil, Act.run, sendCommand_level]

theorem initGround_chain_length {s : State} (hc : s.rx.chain.length = 16 * s.params.wired) :
    (initGround s).rx.chain.length = 16 * s.params.wired := by
  rw [initGround_eq, pin_rx]
  simp only [onPinWrite]
  split
  · simpa [gotoSeq] using hc
  · simpa [gotoSeq] using hc

/-- A register that INITIALIZE writes after its first frame ends with the last value sent, whatever the chips held and
whatever the first frame spoiled: CLK idles low from then on (R221, R264, R265). -/
theorem initEnd_chipReg {s : State} (hc : s.rx.chain.length = 16 * s.params.wired) {rest : List Act}
    (hsplit : initActs s.devices s.params.selfTestMs = initFirst ++ rest) {e : Nat} (he : Wired s e)
    {reg : ChipReg} {v : Byte} (hlast : lastWrite e reg rest = some v) :
    chipReg (initEnd s) e reg = v := by
  have hmem : ∀ a ∈ rest, a ∈ initActs s.devices s.params.selfTestMs := fun a ha => by
    rw [hsplit]; exact List.mem_append_right _ ha
  have hok : ∀ a ∈ rest, a.Ok (runActs initFirst (initGround s)).devices := by
    rw [runActs_devices, initGround_devices]
    exact fun a ha => initActs_ok _ _ a (hmem a ha)
  have hchain : (runActs initFirst (initGround s)).rx.chain.length =
      16 * (runActs initFirst (initGround s)).params.wired := by
    have hran := runActs_ran initFirst (initGround s) (by simp [initFirst, Act.Ok, devices_pos])
    rw [hran.params]
    exact hran.chain (by rw [initGround_params]; exact initGround_chain_length hc)
  have hwired : Wired (runActs initFirst (initGround s)) e := by
    rw [wired_runActs, Wired, initGround_devices, initGround_params]; exact he
  rw [initEnd, hsplit, runActs_append, runActs_chipReg rest _ hok
    (fun a ha => initActs_named _ _ a (hmem a ha)) (runActs_initFirst_clk _) hchain hwired, hlast]
  rfl

/-- Every row register of every wired device holds 0 after INITIALIZE: its clearing comes after the first frame, and
nothing but 0 is sent to a row (R214, R221). -/
theorem initEnd_row {s : State} (hc : s.rx.chain.length = 16 * s.params.wired) {e r : Nat}
    (he : Wired s e) (hr : r < 8) : chipReg (initEnd s) e (digitReg r) = 0 := by
  obtain ⟨rest, hsplit⟩ := initActs_first (devices_pos s) s.params.selfTestMs
  have hclear : Act.cmd e (Config.opDigit r) 0 ∈ rest := by
    have hin := clearActs_subset_initActs he.1 s.params.selfTestMs
      (mem_clearActs.mpr ⟨r, mem_rowList.mpr hr, .inr rfl⟩)
    rw [hsplit] at hin
    simpa [initFirst] using hin
  refine initEnd_chipReg hc hsplit he (lastWrite_eq_some (fun a ha w hw => ?_) ⟨_, hclear, ?_⟩)
  · have ha' : a ∈ initActs s.devices s.params.selfTestMs := hsplit ▸ List.mem_append_right _ ha
    exact (initActs_clearsRows _ _ a ha').writes_eq_zero hr hw
  · rw [Act.writes, if_pos ⟨rfl, (digitReg_opcode hr).symm⟩]

/-- INITIALIZE ends with the shadow mirroring the chips: every row is 0 in both (R219, R221). -/
theorem initEnd_mirrors {s : State} (hc : s.rx.chain.length = 16 * s.params.wired) :
    Mirrors (initEnd s) := by
  intro d r hw hr
  rw [Wired, initEnd_devices, initEnd_params] at hw
  rw [shadowAt_initEnd hw.1 hr, initEnd_row hc hw hr]

theorem mirrors_setResults {s : State} {rs : List Result} : Mirrors (s.setResults rs) ↔ Mirrors s :=
  Iff.rfl

/-- Settles O57, over the kinds of step that run an operation: each keeps the mirror command by command, and INITIALIZE
makes it anew. -/
theorem shadowMirrorsTheChips : Obligations.ShadowMirrorsTheChips := by
  intro s t op rest hinv hseq hmicro hlatched hmirrors hport hkeeps hstep
  have hsynced : Synced (s.setPort rest) := ⟨hinv.idleClk hseq hmicro, hinv.chain, hmirrors⟩
  cases step_next hstep with
  | word d w rest' hl => rw [hlatched] at hl; cases hl
  | frame hl hm => exact absurd hmicro hm
  | idle hl hm hp => rw [hport] at hp; cases hp
  | reserved op' rest' hl hm hp hs => exact ⟨hmirrors, hlatched, hseq, hmicro⟩
  | operation op' rest' i hl hm hp hd hi hs =>
    obtain ⟨rfl, rfl⟩ := List.cons.inj (hport.symm.trans hp)
    have hran := runActs_ran _ (s.setPort rest) (hostActs_ok s.devices s.shadow i)
    refine ⟨(hsynced.hostActs hd hkeeps).mirrors, hran.latched hlatched, ?_, hran.micro.trans hmicro⟩
    rw [setResults_seq, hran.seq, seqAfter_quiet (hostActs_quiet _ _ i)]
    exact hseq
  | initialized op' rest' hl hm hp hd hs =>
    refine ⟨mirrors_setResults.mpr (initEnd_mirrors (s := s.setPort rest') hinv.chain), ?_, ?_, ?_⟩
    · rw [setResults_rx]; exact initEnd_latched _ hlatched
    · rw [setResults_seq]; exact initEnd_seq _
    · rw [setResults_micro, initEnd_micro]; exact hmicro

end Sys2Proof.Machine

/-!
PROOFS of the memory statements (20_memory.md): the byte arrays, the order of a frame on the wire, what the chips hold
and do, and where a step takes its instruction from.
-/

namespace Sys2Proof.Machine

open Sys2Proof.Safety

/-! ## Byte arrays -/

/-- A byte that is not 0x00 is read exactly where a canonical array lists it. -/
theorem Memory.mem_iff_read {m : Memory} (h : m.wf) {a : Nat} {v : Byte} :
    (a, v) ∈ m ↔ v ≠ 0 ∧ m.read a = v := by
  induction m with
  | nil => exact ⟨nofun, fun h => absurd h.2.symm h.1⟩
  | cons c m ih =>
    obtain ⟨b, w⟩ := c
    obtain ⟨hlt, hsorted⟩ := List.pairwise_cons.mp h.1
    obtain ⟨hw, hnz⟩ := List.forall_mem_cons.mp h.2
    have hb : (b, v) ∉ m := fun hmem => absurd (hlt _ hmem) (lt_irrefl b)
    rw [List.mem_cons, Memory.read]
    by_cases hab : a = b
    · subst hab
      rw [if_pos rfl, or_iff_left hb, Prod.mk.injEq, eq_comm (a := v)]
      exact ⟨fun hv => ⟨hv.2 ▸ hw, hv.2⟩, fun hv => ⟨rfl, hv.2⟩⟩
    · rw [if_neg hab, ← ih ⟨hsorted, hnz⟩]
      exact or_iff_right fun hc => hab (congrArg Prod.fst hc)

/-- Settles O60: the two arrays list the same cells, both in rising order of addresses. -/
theorem canonicalArraysAreEqualData : Obligations.CanonicalArraysAreEqualData := by
  intro m m' h h' hread
  have : Std.Irrefl fun c d : Host.Cell => c.1 < d.1 := ⟨fun c => lt_irrefl c.1⟩
  have : Std.Antisymm fun c d : Host.Cell => c.1 < d.1 :=
    ⟨fun c d hcd hdc => absurd hdc (lt_asymm hcd)⟩
  refine h.1.eq_of_mem_iff h'.1 fun c => ?_
  rw [Memory.mem_iff_read h, Memory.mem_iff_read h', hread]

/-! ## Power-on, and where a step takes its instruction from -/

/-- Settles O53: the arrays list nothing, the chain has its bits, and the sequencer is at its start with no frame
running. -/
theorem powerOnMeetsInv : Obligations.PowerOnMeetsInv := by
  intro p
  have hshaped : Shaped (State.powerOn p) :=
    ⟨Memory.nil_wf, by simp [State.powerOn], Memory.nil_wf, by simp [State.powerOn], Memory.nil_wf,
      by simp [State.powerOn], List.length_replicate, by simp [State.powerOn]⟩
  exact inv_of_shaped hshaped trivial (.inl rfl) (fun _ hs => nomatch hs) (fun hs => nomatch hs)

/-- A waiting word is fetched first (log 18). -/
theorem fetch_wire {s : State} {d : Nat} {w : Word} {rest : List (Nat × Word)}
    (hl : s.rx.latched = (d, w) :: rest) :
    fetch s = .wire d w (s.setRx { s.rx with latched := rest, acting := d }) := by
  simp [fetch, hl]

/-- With no word waiting and no frame running the operation presented first is fetched (R67, R70). -/
theorem fetch_host {s : State} {op : HostOp} {rest : List HostOp} (hl : s.rx.latched = [])
    (hm : s.micro = .idle) (hp : s.port = op :: rest) : fetch s = .host op (s.setPort rest) := by
  simp [fetch, hl, hm, hp]

/-- Settles O20, by what is fetched. -/
theorem stepRunsTheLatchedWord : Obligations.StepRunsTheLatchedWord := by
  intro s d w rest i hl hd
  simp only [step, fetch_wire hl, hd]

/-- Settles O21, by what is fetched. -/
theorem stepRunsThePresentedOperation : Obligations.StepRunsThePresentedOperation := by
  intro s op rest i hl hm hp hd
  simp only [step, fetch_host hl hm hp, hd]

/-! ## The order of a frame on the wire -/

theorem wireBytes_length (txbuf : Memory) (k : Nat) : (wireBytes txbuf k).length = 2 * k := by
  induction k with
  | zero => rfl
  | succ k ih => simp only [wireBytes, List.length_cons, ih]; omega

/-- The two bytes of slot `j`, counted from the first one sent, are those of device `k - 1 - j` (R55 to R57). -/
theorem wireBytes_getElem? (txbuf : Memory) {k j : Nat} (hj : j < k) :
    (wireBytes txbuf k)[2 * j]? = some (txbuf.read (2 * (k - 1 - j))) ∧
      (wireBytes txbuf k)[2 * j + 1]? = some (txbuf.read (2 * (k - 1 - j) + 1)) := by
  induction k generalizing j with
  | zero => omega
  | succ k ih =>
    cases j with
    | zero => exact ⟨rfl, rfl⟩
    | succ j =>
      rw [show k + 1 - 1 - (j + 1) = k - 1 - j by omega]
      exact ih (Nat.lt_of_succ_lt_succ hj)

theorem bitsMsbFirst_getElem? (v : Byte) {m : Nat} (hm : m < 8) :
    (bitsMsbFirst v)[m]? = some (v.getLsbD (7 - m)) := by
  interval_cases m <;> rfl

/-- Bit `m` of byte `k` on the wire is bit `7 - m` of the byte (R54, R57). -/
theorem wireBits_getElem? (bytes : List Byte) (k : Nat) {m : Nat} (hm : m < 8) :
    (bytes.flatMap bitsMsbFirst)[8 * k + m]? = bytes[k]?.map fun w => w.getLsbD (7 - m) := by
  induction bytes generalizing k with
  | nil => rfl
  | cons v bytes ih =>
    have hlen : (bitsMsbFirst v).length = 8 := rfl
    rw [List.flatMap_cons]
    cases k with
    | zero =>
      rw [List.getElem?_append_left (by omega), Nat.mul_zero, Nat.zero_add, bitsMsbFirst_getElem? v hm]
      rfl
    | succ k =>
      rw [List.getElem?_append_right (by omega), hlen, show 8 * (k + 1) + m - 8 = 8 * k + m by omega, ih]
      rfl

/-- Settles O8, by the bytes of each slot and the bits of each byte. -/
theorem frameFollowsTheWireFormula : Obligations.FrameFollowsTheWireFormula := by
  intro s
  refine ⟨transmitChain_trace s, wireBytes_length _ _, fun j hj => ?_⟩
  obtain ⟨hfirst, hsecond⟩ := wireBytes_getElem? s.txbuf hj
  exact ⟨hfirst, hsecond, fun k m _ hm => wireBits_getElem? _ k hm⟩

/-! ## What the chips hold after a frame -/

/-- The shift register after the slots of a frame (R60). -/
theorem sendSlots_chain (s : State) :
    (sendSlots s.devices (pin .load false s)).rx.chain =
      chainAfter s.params.wired s.level.clk ((wireBytes s.txbuf s.devices).flatMap bitsMsbFirst)
        s.rx.chain := by
  rw [sendSlots_eq_sendAll, sendAll_eq]
  simp [onPinWrite, PerPin.put]

theorem chainAfter_clkLow (wired : Nat) (bs chain : List Bool) :
    chainAfter wired false bs chain = shiftAll wired bs chain := rfl

/-- A bit that is still in the shift register stands as far from the controller as bits entered after it (R61). -/
theorem shiftAll_getElem? {wired : Nat} {bs chain : List Bool} (hc : chain.length ≤ 16 * wired) {p : Nat}
    (hp : p < bs.length) (hw : p < 16 * wired) :
    (shiftAll wired bs chain)[p]? = bs[bs.length - 1 - p]? := by
  rw [shiftAll_eq _ _ _ hc, List.getElem?_take_of_lt hw,
    List.getElem?_append_left (by rwa [List.length_reverse]), List.getElem?_reverse hp]

/-- Settles O13: the bits of the frame push every earlier bit beyond the chips of its devices. -/
theorem chipHoldsItsSlotAfterAFrame : Obligations.ChipHoldsItsSlotAfterAFrame := by
  intro s hclk hc
  rw [sendSlots_chain, hclk, chainAfter_clkLow]
  refine ⟨fun p hp hw => ?_, fun d hd => chipWord_of_frame _ _ _ _ _ hd.1 hd.2 hc.le⟩
  rw [← wireBits_length s.txbuf s.devices] at hp ⊢
  exact shiftAll_getElem? hc.le hp hw

/-! ## What the chips do at a latch edge -/

/-- Settles O15: the step of a waiting word and the latch edge run the same effects. -/
theorem latchedWordRunsItsInstruction : Obligations.LatchedWordRunsItsInstruction :=
  fun _ _ _ _ => exec_latched

/-- A write of a pin that is no rising edge of LOAD leaves the chips' registers (R60, R62). -/
theorem pin_regs {p : Pin} {l : Bool} {s : State} (h : p ≠ .load ∨ l = false ∨ s.level.load = true) :
    (pin p l s).rx.regs = s.rx.regs := by
  rw [pin_rx]
  cases p with
  | data => rfl
  | clk => simp only [onPinWrite]; split <;> rfl
  | load =>
    have hno : (l && !s.level.load) = false := by
      rcases h with h | h | h
      · exact absurd rfl h
      · simp [h]
      · simp [h]
    simp [onPinWrite, hno]

/-- A rising edge of LOAD is a latch edge (R62). -/
theorem pin_load_rising {s : State} (h : s.level.load = false) :
    (pin .load true s).rx = latchEdge s.params.wired s.rx := by
  simp [onPinWrite, h]

/-- At a latch edge every place of the chain has what its own word gives it (R62, R89). -/
theorem ownWordDecides_latch {s : State} (h : s.level.load = false) (c : Nat) :
    OwnWordDecides s (pin .load true s) c := by
  intro reg
  rw [chipReg, pin_load_rising h]
  exact ⟨fun hc i hi => latchEdge_own _ _ _ hc _ hi, fun hc => latchEdge_unwired _ _ _ hc _⟩

/-- Settles O16, by what the word of each place says. -/
theorem chipsActAtTheLatchEdgeAlone : Obligations.ChipsActAtTheLatchEdgeAlone := by
  intro p l s
  refine ⟨pin_regs, ?_⟩
  rintro rfl rfl hload d hd
  refine ⟨fun reg data hw other => ?_, fun data hw other => ?_, fun _ _ c _ => ownWordDecides_latch hload c⟩
  · rw [chipReg, pin_load_rising hload, latchEdge_reg _ _ _ hd reg data _ hw,
      if_congr opcode_inj rfl rfl, chipReg]
  · rw [chipReg, pin_load_rising hload, latchEdge_noop _ _ _ hd data _ hw, chipReg]

/-! ## Which registers an operation reaches -/

theorem validDevice_of_bounds {n : Nat} {device : Int} (h0 : 0 ≤ device) (hn : device < n) :
    validDevice n device = true := validDevice_iff.mpr ⟨h0, hn⟩

theorem eq_toNat_iff {device : Int} (h0 : 0 ≤ device) {e : Nat} : e = device.toNat ↔ (e : Int) = device := by
  omega

@[simp] theorem chipReg_setResults (s : State) (rs : List Result) (d : Nat) (reg : ChipReg) :
    chipReg (s.setResults rs) d reg = chipReg s d reg := rfl

@[simp] theorem shadowAt_setResults (s : State) (rs : List Result) (d r : Nat) :
    shadowAt (s.setResults rs) d r = shadowAt s d r := rfl

/-- Settles O38, by the kind of the opcode. -/
theorem commandReachesOneRegister : Obligations.CommandReachesOneRegister := by
  intro s device opcode value ha h0 hn hclk hc
  have hv := validDevice_of_bounds h0 hn
  have hd := validDevice_toNat hv
  refine ⟨_, whenReady_accepts ha _, fun e other he => ?_⟩
  rw [writeCommand_valid hv, reportResult_mk, chipReg_setResults, trunc8, trunc8]
  refine ⟨fun reg ho => ?_, fun ho => ?_, fun hne => ?_⟩
  · rw [ho, sendCommand_chipReg _ reg other hd he hclk hc,
      if_congr (and_congr_left' (eq_toNat_iff h0)) rfl rfl]
  · rw [ho, sendCommand_noop _ other hd he hclk hc]
  · exact sendCommand_others _ _ other hd he (mt (eq_toNat_iff h0).mp hne) hclk hc

/-- A command leaves the shadow byte stored before it (R23). -/
theorem row_shadowAt (d r : Nat) (o v : Byte) (s : State) :
    shadowAt (sendCommand d o v (writeShadow d r v s)) d r = v := by
  rw [shadowAt, sendCommand_shadow, writeShadow, setShadow_shadow, Memory.read_write, if_pos rfl]

/-- A shadow byte and the command that sends it reach the row's register of one chip (R62, R190). -/
theorem row_chipReg {d r e : Nat} {s : State} (v : Byte) (reg : ChipReg) (hd : d < s.devices) (hr : r < 8)
    (he : Wired s e) (hclk : s.level.clk = false) (hc : s.rx.chain.length = 16 * s.params.wired) :
    chipReg (sendCommand d (Config.opDigit r) v (writeShadow d r v s)) e reg =
      if e = d ∧ reg = digitReg r then v else chipReg s e reg := by
  rw [← digitReg_opcode hr]
  exact sendCommand_chipReg (s := writeShadow d r v s) v (digitReg r) reg hd he hclk hc

/-- The command of a row writes to the row's register of its device alone. -/
theorem writes_row {d e r : Nat} {v : Byte} {reg : ChipReg} (hr : r < 8) :
    (Act.cmd d (Config.opDigit r) v).writes e reg = if e = d ∧ reg = digitReg r then some v else none := by
  rw [Act.writes, ← digitReg_opcode hr]
  exact if_congr (and_congr eq_comm (opcode_inj.trans eq_comm)) rfl rfl

/-- The last value CLEAR_DISPLAY sends to a register: 0 to the rows of its device, none to the others (R160). -/
theorem lastWrite_clearActs (d e : Nat) (reg : ChipReg) {rows : List Nat} (hrows : ∀ r ∈ rows, r < 8) :
    lastWrite e reg (clearActs d rows) =
      if e = d ∧ ∃ r ∈ rows, reg = digitReg r then some 0 else none := by
  induction rows with
  | nil => simp [clearActs, lastWrite]
  | cons r rows ih =>
    obtain ⟨hr, hrows⟩ := List.forall_mem_cons.mp hrows
    have hcons : clearActs d (r :: rows) =
        .store d r 0 :: .cmd d (Config.opDigit r) 0 :: clearActs d rows := rfl
    have hsplit : (e = d ∧ ∃ q ∈ r :: rows, reg = digitReg q) ↔
        (e = d ∧ reg = digitReg r) ∨ e = d ∧ ∃ q ∈ rows, reg = digitReg q := by
      rw [List.exists_mem_cons_iff, and_or_left]
    rw [hcons, lastWrite, lastWrite, ih hrows, writes_row hr, if_congr hsplit rfl rfl]
    by_cases hlater : e = d ∧ ∃ q ∈ rows, reg = digitReg q
    · rw [if_pos hlater, if_pos (Or.inr hlater)]; rfl
    · rw [if_neg hlater, if_congr (or_iff_left hlater) rfl rfl, Option.none_or]
      exact Option.or_none

/-- CLEAR_DISPLAY zeroes the row registers of one chip and reaches no other register (R62, R160). -/
theorem clearActs_chipReg {d e : Nat} {s : State} (reg : ChipReg) (hd : d < s.devices) (he : Wired s e)
    (hclk : s.level.clk = false) (hc : s.rx.chain.length = 16 * s.params.wired) :
    chipReg (runActs (clearActs d rowList) s) e reg =
      if e = d ∧ ∃ r ∈ rowList, reg = digitReg r then 0 else chipReg s e reg := by
  have hrows : ∀ r ∈ rowList, r < 8 := fun r => mem_rowList.mp
  have hnamed : ∀ a ∈ clearActs d rowList, a.Named := by
    intro a ha
    obtain ⟨r, hr, rfl | rfl⟩ := mem_clearActs.mp ha
    · trivial
    · exact .inr ⟨digitReg r, (digitReg_opcode (hrows r hr)).symm⟩
  rw [runActs_chipReg _ s (clearActs_ok hd _ hrows) hnamed hclk hc he, lastWrite_clearActs d e reg hrows]
  split <;> rfl

/-- Settles O39, by the one row SET_LED sends and the eight CLEAR_DISPLAY sends. -/
theorem ledOperationsReachTheirRowRegisters : Obligations.LedOperationsReachTheirRowRegisters := by
  intro s device ha h0 hn hclk hc
  have hv := validDevice_of_bounds h0 hn
  have hd := validDevice_toNat hv
  refine ⟨fun row column state hr0 hr7 hc0 hc7 => ?_, ?_⟩
  · refine ⟨_, whenReady_accepts ha _, fun e reg he => ?_⟩
    have hrow : row.toNat < 8 := by omega
    rw [setLed_valid hv (inRange_iff.mpr ⟨hr0, hr7⟩) (inRange_iff.mpr ⟨hc0, hc7⟩), reportResult_mk,
      chipReg_setResults, shadowAt_setResults, row_shadowAt, row_chipReg _ reg hd hrow he hclk hc,
      if_congr (and_congr_left' (eq_toNat_iff h0)) rfl rfl]
  · refine ⟨_, whenReady_accepts ha _, fun e reg he => ?_⟩
    rw [clearDevice_valid hv, clearRows_acts _ _ hv, reportResult_mk, chipReg_setResults,
      clearActs_chipReg reg hd he hclk hc, if_congr (and_congr_left' (eq_toNat_iff h0)) rfl rfl]

end Sys2Proof.Machine

/-!
PROOFS of the encoding statements (30_encoding.md): the words and records of an instruction, the words and selectors
that name none, what a chip does with a RESERVED word, and the operations that are a raw write.
-/

namespace Sys2Proof.Machine

/-! ## The words and records of an instruction -/

theorem encode_wireInstr (reg : ChipReg) (data : Byte) :
    encode (wireInstr reg data) = .wire (wireWord data reg.opcode) := by
  cases reg <;> rfl

/-- An instruction is the no-op, the command for a register, or a host operation, which has no word (R80). -/
theorem instr_cases (i : Instr) :
    (∃ data, i = .wireNoop data) ∨ (∃ reg data, i = wireInstr reg data) ∨ ∃ op, encode i = .host op := by
  cases i with
  | wireNoop data => exact .inl ⟨data, rfl⟩
  | wireDigit0 data => exact .inr (.inl ⟨.digit0, data, rfl⟩)
  | wireDigit1 data => exact .inr (.inl ⟨.digit1, data, rfl⟩)
  | wireDigit2 data => exact .inr (.inl ⟨.digit2, data, rfl⟩)
  | wireDigit3 data => exact .inr (.inl ⟨.digit3, data, rfl⟩)
  | wireDigit4 data => exact .inr (.inl ⟨.digit4, data, rfl⟩)
  | wireDigit5 data => exact .inr (.inl ⟨.digit5, data, rfl⟩)
  | wireDigit6 data => exact .inr (.inl ⟨.digit6, data, rfl⟩)
  | wireDigit7 data => exact .inr (.inl ⟨.digit7, data, rfl⟩)
  | wireDecodeMode data => exact .inr (.inl ⟨.decodeMode, data, rfl⟩)
  | wireIntensity data => exact .inr (.inl ⟨.intensity, data, rfl⟩)
  | wireScanLimit data => exact .inr (.inl ⟨.scanLimit, data, rfl⟩)
  | wireShutdown data => exact .inr (.inl ⟨.shutdown, data, rfl⟩)
  | wireDisplayTest data => exact .inr (.inl ⟨.displayTest, data, rfl⟩)
  | _ => exact .inr (.inr ⟨_, rfl⟩)

/-- The word of an instruction names it (R81, R82). -/
theorem decodeWire_of_encode {i : Instr} {w : Word} (h : encode i = .wire w) : decodeWire w = .ok i := by
  rcases instr_cases i with ⟨data, rfl⟩ | ⟨reg, data, rfl⟩ | ⟨op, hop⟩
  · cases h
    exact decodeWire_noop data
  · rw [encode_wireInstr] at h
    cases h
    exact decodeWire_reg reg data
  · cases hop.symm.trans h

/-- The record of an instruction names it (R85, R86): each host operation keeps its operands in the fields its
selector binds, and a wire command has no record. -/
theorem decodeHost_of_encode {i : Instr} {op : HostOp} (h : encode i = .host op) : decodeHost op = .ok i := by
  cases i <;> cases h <;> rfl

/-- Settles O2, by the form of the encoding. -/
theorem decodeAfterEncode : Obligations.DecodeAfterEncode := by
  intro i
  cases h : encode i with
  | wire w => exact decodeWire_of_encode h
  | host op => exact decodeHost_of_encode h

/-- Settles O3: the opcode byte of the word is the one of the command decoded, and the data byte is its operand. -/
theorem encodeAfterDecodeWire : Obligations.EncodeAfterDecodeWire := by
  intro w i h
  rcases decodeWire_ok h with ⟨ho, rfl⟩ | ⟨reg, ho, rfl⟩
  · rw [encode, ← ho, wireWord_of_parts]
  · rw [encode_wireInstr, ← ho, wireWord_of_parts]

/-- A slot before other slots is decoded on its own (R90). -/
theorem decodeFrame_slot {data opcode : Byte} {rest : List Byte} {i : Instr} {is : List Instr}
    (hi : decodeWire (wireWord data opcode) = .ok i) (his : decodeFrame rest = .ok is) :
    decodeFrame (data :: opcode :: rest) = .ok (i :: is) := by
  simp only [decodeFrame, hi, his]

theorem slotBytesOf_wire {i : Instr} {w : Word} (h : encode i = .wire w) :
    slotBytesOf i = [wireData w, wireOpcode w] := by
  simp only [slotBytesOf, h]

/-- Settles O4, by induction on the commands. -/
theorem frameOfCommandsDecodes : Obligations.FrameOfCommandsDecodes := by
  intro is h
  induction is with
  | nil => rfl
  | cons i is ih =>
    obtain ⟨⟨w, hw⟩, his⟩ := List.forall_mem_cons.mp h
    rw [List.flatMap_cons, slotBytesOf_wire hw]
    refine decodeFrame_slot ?_ (ih his)
    rw [wireWord_of_parts]
    exact decodeWire_of_encode hw

/-- Settles O1: each word is a data byte above the opcode byte of a command, or above a RESERVED one. -/
theorem wireWordsOfTheVectorsDecode : Obligations.WireWordsOfTheVectorsDecode :=
  ⟨decodeWire_noop 0x00, decodeWire_reg .digit0 0x80, decodeWire_reg .digit7 0xFF, decodeWire_reg .digit4 0x00,
    decodeWire_reg .decodeMode 0x00, decodeWire_reg .decodeMode 0xFF, decodeWire_reg .intensity 0x08,
    decodeWire_reg .intensity 0x0F, decodeWire_reg .scanLimit 0x07, decodeWire_reg .shutdown 0x01,
    decodeWire_reg .shutdown 0x00, decodeWire_reg .displayTest 0x01, decodeWire_reg .displayTest 0x00,
    decodeWire_reserved 0x55 0x0D (by decide), decodeWire_reserved 0x00 0x10 (by decide), decodeWire_noop 0x7F⟩

/-! ## The words and selectors that name nothing -/

/-- A word whose opcode byte is not RESERVED decodes (R82). -/
theorem decodeWire_of_not_reserved {w : Word}
    (h : ¬(wireOpcode w = 0x0D ∨ wireOpcode w = 0x0E ∨ 0x10 ≤ (wireOpcode w).toNat)) :
    ∃ i, decodeWire w = .ok i := by
  rw [← wireWord_of_parts w]
  rcases opcode_cases (wireOpcode w) with ho | ⟨reg, ho⟩ | ho
  · exact ⟨_, ho ▸ decodeWire_noop _⟩
  · exact ⟨_, ho ▸ decodeWire_reg reg _⟩
  · exact absurd ho h

/-- Settles O5: a RESERVED opcode byte is rejected, any other one names a command. -/
theorem wireDecoderRejectsReservedOpcodes : Obligations.WireDecoderRejectsReservedOpcodes := by
  intro w
  refine ⟨⟨fun herr => ?_, fun ho => ?_⟩, fun ⟨hD, hE, hlt⟩ => ?_⟩
  · by_contra hno
    obtain ⟨i, hi⟩ := decodeWire_of_not_reserved hno
    cases herr.symm.trans hi
  · have hw := decodeWire_reserved (wireData w) (wireOpcode w) ho
    rwa [wireWord_of_parts] at hw
  · exact decodeWire_of_not_reserved (not_or.mpr ⟨hD, not_or.mpr ⟨hE, Nat.not_le.mpr hlt⟩⟩)

/-- A selector above those of the operations is rejected by name (R89 (b)). -/
theorem decodeHost_reserved {op : HostOp} (h : 11 ≤ op.sel.toNat) :
    decodeHost op = .error (.reservedSelector op.sel) := by
  unfold decodeHost
  split
  case h_12 => rfl
  all_goals omega

/-- Settles O6, selector by selector. -/
theorem hostSelectorsNameOperations : Obligations.HostSelectorsNameOperations :=
  fun _ _ _ _ => ⟨rfl, rfl, rfl, rfl, rfl, rfl, rfl, rfl, rfl, rfl, rfl, fun _ hsel => decodeHost_reserved hsel⟩

/-! ## A RESERVED word in a chip -/

/-- A waiting word with a RESERVED opcode reaches its chip alone, in a step that stops nothing (R89 (a)). -/
theorem step_reservedWord {s : State} {d : Nat} {w : Word} {rest : List (Nat × Word)} {e : DecodeReject}
    (hl : s.rx.latched = (d, w) :: rest) (hd : decodeWire w = .error e) :
    step s = .next (s.setRx (takeWord { s.rx with latched := rest, acting := d } (d, w))) := by
  simp only [step, fetch_wire hl, hd]
  rfl

/-- A rising edge of LOAD changes of the block the level of that pin and the trace alone (R10). -/
theorem pin_load_eq (s : State) :
    pin .load true s =
      { s with
        level := ⟨s.level.data, s.level.clk, true⟩
        trace := s.trace ++ [.write .load true]
        rx := (pin .load true s).rx } := rfl

/-- Settles O22: the word of one chip changes that chip's registers alone, and at the latch edge every other chip has
what its own word gives it. -/
theorem reservedOpcodeStaysInItsChip : Obligations.ReservedOpcodeStaysInItsChip := by
  intro s d e
  refine ⟨fun w rest hl hd => ?_, fun hload _ _ => ?_⟩
  · obtain ⟨hchain, hlatched, hothers, -, -⟩ :=
      takeWord_onlyChip { s.rx with latched := rest, acting := d } d w
    exact ⟨_, step_reservedWord hl hd, rfl, hchain, hlatched, fun c reg hc => hothers c reg.opcode hc⟩
  · refine ⟨pin_load_eq s, ?_, ?_, fun c _ => ownWordDecides_latch hload c⟩
    · rw [pin_load_rising hload, latchEdge_chain]
    · rw [pin_load_rising hload, latchEdge_latched]

/-! ## The operations that are a raw write -/

/-- Reduction keeps a byte (R8). -/
theorem trunc8_toNat (b : Byte) : trunc8 (b.toNat : Int) = b := by
  rw [trunc8, BitVec.ofInt_natCast, BitVec.ofNat_toNat, BitVec.setWidth_eq]

theorem trunc8_ite_shutdownData (enabled : Bool) : trunc8 (if enabled then 1 else 0) = shutdownData enabled := by
  cases enabled <;> rfl

theorem trunc8_ite_zext8 (enabled : Bool) : trunc8 (if enabled then 1 else 0) = zext8 enabled := by
  cases enabled <;> rfl

/-- An operation whose body on a valid device is one command is the raw write of that command, accepted or refused
alike (R92, R147). -/
theorem whenReady_eq_writeCommand {s : State} {device : Int} (hv : validDevice s.devices device = true)
    {body : State → State × Result} {opcode : Byte} {value : Int}
    (hbody : body s = (sendCommand device.toNat opcode (trunc8 value) s, .ok)) :
    whenReady body s = exec (.hostWriteCommand device opcode.toNat value) s := by
  have hwrite : body s = writeCommand device (trunc8 opcode.toNat) (trunc8 value) s := by
    rw [hbody, trunc8_toNat, writeCommand_valid hv]
  show whenReady body s = whenReady (writeCommand device (trunc8 opcode.toNat) (trunc8 value)) s
  rw [whenReady, whenReady, hwrite]

/-- Settles O37: the body of each operation, in range, is one command with the named opcode. -/
theorem configOperationsExpandToWriteCommand : Obligations.ConfigOperationsExpandToWriteCommand := by
  intro s device h0 hn
  have hv := validDevice_of_bounds h0 hn
  refine ⟨fun mode => ?_, fun level hl hl' => ?_, fun limit hl hl' => ?_, fun enabled => ?_, fun enabled => ?_⟩
  · exact whenReady_eq_writeCommand hv (setDecodeMode_valid hv mode)
  · exact whenReady_eq_writeCommand hv (setIntensity_valid hv (inRange_iff.mpr ⟨hl, hl'⟩))
  · exact whenReady_eq_writeCommand hv (setScanLimit_valid hv (inRange_iff.mpr ⟨hl, hl'⟩))
  · refine whenReady_eq_writeCommand hv ?_
    rw [trunc8_ite_shutdownData, shutdownDevice_valid hv]
  · refine whenReady_eq_writeCommand hv ?_
    rw [trunc8_ite_zext8, displayTest_valid hv]

end Sys2Proof.Machine

/-!
PROOFS of the wire command statements (40_wire_commands.md): what each of the fourteen commands does to the chip that
acts, and the frame that carries one of them.
-/

namespace Sys2Proof.Machine

open Sys2Proof.Safety

/-! ## A command at the chip that acts -/

/-- A command for a register is the write of its data byte to that register of the acting chip (R62, R111 to R123). -/
theorem exec_wireInstr (reg : ChipReg) (data : Byte) (s : State) :
    exec (wireInstr reg data) s = .next (s.setRx (writeReg reg data s.rx)) := by
  cases reg <;> rfl

/-- Settles O17: the no-op hands the chips back as they are. -/
theorem noopCompletes : Obligations.NoopCompletes := fun _ _ => rfl

/-- The write of one register reaches no other byte of the chips and nothing of the block (R62). -/
theorem wroteReg_writeReg (reg : ChipReg) (data : Byte) (s : State) :
    WroteReg reg data s (s.setRx (writeReg reg data s.rx)) where
  value := by rw [chipReg, setRx_rx, writeReg_regs, Memory.read_write, if_pos rfl]
  others a ha := by rw [setRx_rx, writeReg_regs, Memory.read_write, if_neg ha]
  frame := rfl

/-- A command for a register completes in every state and writes that register alone (R111 to R123). -/
theorem exec_wireInstr_wroteReg (reg : ChipReg) (data : Byte) (s : State) :
    ∃ t, exec (wireInstr reg data) s = .next t ∧ WroteReg reg data s t :=
  ⟨_, exec_wireInstr reg data s, wroteReg_writeReg reg data s⟩

/-- Settles O18: each digit command is the command of its row register. -/
theorem digitCommandsWriteTheirRow : Obligations.DigitCommandsWriteTheirRow := by
  intro data s
  have h (reg : ChipReg) := exec_wireInstr_wroteReg reg data s
  exact ⟨h .digit0, h .digit1, h .digit2, h .digit3, h .digit4, h .digit5, h .digit6, h .digit7⟩

/-- Settles O19: each configuration command is the command of its register. -/
theorem configCommandsWriteTheirRegister : Obligations.ConfigCommandsWriteTheirRegister := by
  intro data s
  have h (reg : ChipReg) := exec_wireInstr_wroteReg reg data s
  exact ⟨h .decodeMode, h .intensity, h .scanLimit, h .shutdown, h .displayTest⟩

/-! ## The frame of one command -/

/-- Slots of zeros before other slots decode to no-ops (R90, R124). -/
theorem decodeFrame_zeros_append (k : Nat) {rest : List Byte} {is : List Instr}
    (h : decodeFrame rest = .ok is) :
    decodeFrame (List.replicate (2 * k) 0 ++ rest) = .ok (List.replicate k (.wireNoop 0) ++ is) := by
  induction k with
  | zero => rwa [Nat.mul_zero, List.replicate_zero, List.replicate_zero]
  | succ k ih => exact decodeFrame_slot (decodeWire_noop 0) ih

/-- Slots of zeros decode to no-ops (R124). -/
theorem decodeFrame_zeros (k : Nat) :
    decodeFrame (List.replicate (2 * k) 0) = .ok (List.replicate k (.wireNoop 0)) := by
  simpa using decodeFrame_zeros_append k (rest := []) rfl

/-- Settles O12: the slots of zeros beyond the target, its own slot, and the slots of zeros nearer than it. -/
theorem frameCarriesOneCommand : Obligations.FrameCarriesOneCommand := by
  intro n d opcode value i _ hi
  rw [frameBytes, List.append_assoc, List.append_assoc]
  exact decodeFrame_zeros_append _ (decodeFrame_slot hi (decodeFrame_zeros d))

end Sys2Proof.Machine

/-!
PROOFS of the bit serializer's statement (41_bit_serializer.md): the events of a byte and the state it leaves (R131).
-/

namespace Sys2Proof.Machine

open Sys2Proof.Safety

/-! ## The events of a list of bits -/

theorem bitEvents_length (b : Bool) : (bitEvents b).length = 3 := rfl

theorem byteEvents_length (v : Byte) : (byteEvents v).length = 24 := rfl

/-- Bit `i` of a list is sent by the events 3i to 3i + 2 (R130). -/
theorem bitEvents_flatMap_getElem? (bs : List Bool) (i : Nat) {k : Nat} (hk : k < 3) :
    (bs.flatMap bitEvents)[3 * i + k]? = bs[i]?.bind fun b => (bitEvents b)[k]? := by
  induction bs generalizing i with
  | nil => rfl
  | cons b bs ih =>
    rw [List.flatMap_cons]
    cases i with
    | zero =>
      rw [Nat.mul_zero, Nat.zero_add, List.getElem?_append_left (by rwa [bitEvents_length])]
      rfl
    | succ i =>
      rw [List.getElem?_append_right (by rw [bitEvents_length]; omega), bitEvents_length,
        show 3 * (i + 1) + k - 3 = 3 * i + k by omega, ih]
      rfl

/-- Among the events of a list of bits DATA is written first of all or straight after CLK went low (R131). -/
theorem dataWrite_first_or_after_clkLow {bs : List Bool} {before after : List Event} {l : Bool}
    (h : bs.flatMap bitEvents = before ++ .write .data l :: after) :
    before = [] ∨ before.getLast? = some (.write .clk false) := by
  induction bs generalizing before with
  | nil => simp at h
  | cons b bs ih =>
    rw [List.flatMap_cons, bitEvents] at h
    match before, h with
    | [], _ => exact .inl rfl
    | [_], h => simp at h
    | [_, _], h => simp at h
    | e₀ :: e₁ :: e₂ :: rest, h =>
      simp only [List.cons_append, List.nil_append, List.cons.injEq] at h
      obtain ⟨-, -, hlow, hrest⟩ := h
      right
      rcases ih hrest with rfl | hlast
      · rw [← hlow]; rfl
      · simp [List.getLast?_cons, hlast]

/-! ## One byte -/

/-- What one byte does (R130): its events, the levels it leaves, the chain it shifts; nothing else. -/
theorem serializeByte_eq (v : Byte) (s : State) :
    serializeByte v s =
      { s with
        level := ⟨v.getLsbD 0, false, s.level.load⟩
        rx := { s.rx with chain := chainAfter s.params.wired s.level.clk (bitsMsbFirst v) s.rx.chain }
        trace := s.trace ++ byteEvents v } := by
  have hne : bitsMsbFirst v ≠ [] := List.cons_ne_nil _ _
  rw [serializeByte_eq_sendAll, sendAll_eq, if_neg hne, bitsMsbFirst_getLast]
  rfl

/-- The `i`-th three events of a byte send its bit 7 - i (R54, R130). -/
theorem byteEvents_getElem? (v : Byte) {i k : Nat} (hi : i < 8) (hk : k < 3) :
    (byteEvents v)[3 * i + k]? = (bitEvents (v.getLsbD (7 - i)))[k]? := by
  rw [byteEvents, bitEvents_flatMap_getElem? _ i hk, bitsMsbFirst_getElem? v hi]
  rfl

/-- Settles O7: the events are those of the bits of the byte, three for each, and the state is the one
`serializeByte_eq` names. -/
theorem serializeByteEventsAndEndState : Obligations.SerializeByteEventsAndEndState := by
  intro v s
  rw [serializeByte_eq]
  refine ⟨byteEvents v, rfl, byteEvents_length v, fun i hi => ?_,
    fun _ _ _ h => dataWrite_first_or_after_clkLow h, rfl, _, rfl⟩
  have hevent {k : Nat} (hk : k < 3) := byteEvents_getElem? v hi hk
  exact ⟨hevent (k := 0) (by decide), hevent (k := 1) (by decide), hevent (k := 2) (by decide)⟩

end Sys2Proof.Machine

/-!
PROOFS of the frame transmitter's statements (42_frame_transmitter.md): what a frame counts (R142), the frame that the
raw write of one command sends (R143, R147), and that the buffer is rebuilt for it (R144).
-/

namespace Sys2Proof.Machine

open Sys2Proof.Safety

/-! ## The counts of a frame -/

theorem bitEvents_flatMap_length (bs : List Bool) : (bs.flatMap bitEvents).length = 3 * bs.length := by
  induction bs with
  | nil => rfl
  | cons b bs ih => rw [List.flatMap_cons, List.length_append, bitEvents_length, ih, List.length_cons]; omega

/-- Every bit writes DATA once (R130). -/
theorem bitEvents_count_data (bs : List Bool) :
    (bs.flatMap bitEvents).count (.write .data false) + (bs.flatMap bitEvents).count (.write .data true) =
      bs.length := by
  induction bs with
  | nil => rfl
  | cons b bs ih =>
    have hb : (bitEvents b).count (.write .data false) + (bitEvents b).count (.write .data true) = 1 := by
      cases b <;> decide
    rw [List.flatMap_cons, List.count_append, List.count_append, List.length_cons]
    omega

/-- Every bit raises CLK once and lowers it once (R130). -/
theorem bitEvents_count_clk (l : Bool) (bs : List Bool) :
    (bs.flatMap bitEvents).count (.write .clk l) = bs.length := by
  induction bs with
  | nil => rfl
  | cons b bs ih =>
    have hb : (bitEvents b).count (.write .clk l) = 1 := by cases b <;> cases l <;> decide
    rw [List.flatMap_cons, List.count_append, List.length_cons, hb, ih, Nat.add_comm]

/-- Settles O9: between the two writes of LOAD stand the events of 16N bits (R57), three for each. -/
theorem transmitChainCounts : Obligations.TransmitChainCounts := by
  intro s
  have hbits := wireBits_length s.txbuf s.devices
  refine ⟨((wireBytes s.txbuf s.devices).flatMap bitsMsbFirst).flatMap bitEvents, ?_, ?_, ?_, ?_, ?_,
    transmitChain_level s, transmitChain_txbuf s, transmitChain_shadow s⟩
  · rw [transmitChain_trace, frameEvents, byteEvents_flatMap]
  · rw [bitEvents_flatMap_length, hbits]; omega
  · rw [bitEvents_count_data, hbits]
  · rw [bitEvents_count_clk, hbits]
  · rw [bitEvents_count_clk, hbits]

/-! ## The frame of one command -/

/-- What a frame leaves says nothing of the results. -/
theorem sentFrame_setResults {d : Nat} {o v : Byte} {s t : State} (h : SentFrame d o v s t) (rs : List Result) :
    SentFrame d o v s (t.setResults rs) :=
  ⟨h.trace, h.txbuf, h.beyond, h.level, h.params, h.dir, h.seq, h.micro, h.port, h.draws⟩

/-- An accepted operation whose body is one command to a device of the chain completes with OK, sends that command's
frame alone and leaves the shadow (R145, R147). -/
theorem whenReady_sendsFrame {s : State} {d : Nat} {o v : Byte} {body : State → State × Result} (ha : Accepts s)
    (hd : d < s.devices) (hbody : body s = (sendCommand d o v s, .ok)) :
    ∃ t, whenReady body s = .next t ∧ SentFrame d o v s t ∧ t.shadow = s.shadow ∧
      t.results = s.results ++ [.ok] := by
  refine ⟨_, whenReady_accepts ha body, ?_⟩
  rw [hbody, reportResult_mk, sendCommand_results]
  exact ⟨sentFrame_setResults (sendCommand_sentFrame o v hd) _, sendCommand_shadow d o v s, rfl⟩

/-- Settles O24: the raw write is one command with the reduced operands. -/
theorem writeCommandSendsItsFrame : Obligations.WriteCommandSendsItsFrame := by
  intro s device opcode value ha h0 hn
  have hv := validDevice_of_bounds h0 hn
  exact whenReady_sendsFrame ha (validDevice_toNat hv) (writeCommand_valid hv (trunc8 opcode) (trunc8 value))

/-! ## The buffer is rebuilt -/

/-- Settles O40: the events, the chips and the 2N bytes of the buffer that one command leaves are given by its operands
and by fields of the state other than the buffer. -/
theorem bufferIsRebuiltForEveryWrite : Obligations.BufferIsRebuiltForEveryWrite := by
  intro s stale device opcode value h0 hn
  have hv := validDevice_of_bounds h0 hn
  have hd : device.toNat < s.devices := validDevice_toNat hv
  have hd' : device.toNat < (s.setTxbuf stale).devices := hd
  rw [writeCommand_fst hv, writeCommand_fst (s := s.setTxbuf stale) hv]
  refine ⟨?_, ?_, fun i hi => ?_⟩
  · rw [sendCommand_trace _ _ hd, sendCommand_trace _ _ hd']; rfl
  · rw [sendCommand_rx _ _ hd, sendCommand_rx _ _ hd']; rfl
  · rw [txbufAt, txbufAt, (sendCommand_sentFrame _ _ hd).txbuf i hi, (sendCommand_sentFrame _ _ hd').txbuf i hi]

end Sys2Proof.Machine

/-!
PROOFS of the shadow framebuffer's statements (43_shadow_framebuffer.md): what CLEAR_DISPLAY leaves (R160), the frames
an observer reads of it (R161, R282), and the pattern of one column drawn row by row (R163).
-/

namespace Sys2Proof.Machine

open Sys2Proof.Safety

/-! ## What CLEAR_DISPLAY leaves -/

/-- CLEAR_DISPLAY on a device of the chain clears the eight rows and completes with OK (R160). -/
theorem exec_clearDisplay {s : State} {device : Int} (ha : Accepts s)
    (hv : validDevice s.devices device = true) :
    exec (.hostClearDisplay device) s =
      .next ((rowList.foldl (clearRow device) s).setResults (s.results ++ [.ok])) := by
  refine (whenReady_accepts ha _).trans ?_
  rw [clearDevice_valid hv, reportResult_mk, (clearRows_cleared rowList s hv).results]

/-- The eight frames of CLEAR_DISPLAY, row by row (R161). -/
def clearFrames (n d : Nat) : List (List Byte) := rowList.map fun r => frameBytes n d (Config.opDigit r) 0

theorem clearEvents_eq_rows (n d : Nat) :
    clearEvents n d = rowList.flatMap fun r => commandEvents n d (Config.opDigit r) 0 := rfl

theorem clearEvents_eq_frames (n d : Nat) : clearEvents n d = (clearFrames n d).flatMap frameEvents := rfl

/-- Settles O33: the shadow and the events are those of the eight rows, the buffer and the levels those of the last. -/
theorem clearDisplayClearsItsDevice : Obligations.ClearDisplayClearsItsDevice := by
  intro s device ha h0 hn
  have hv := validDevice_of_bounds h0 hn
  have hrows := clearRows_cleared rowList s hv
  obtain ⟨m, hm, -, hlast⟩ := clearRows_last [0, 1, 2, 3, 4, 5, 6] 7 s hv
  refine ⟨_, exec_clearDisplay ha hv, fun r hr => ?_, fun a hne => ?_, ?_, fun i hi => ?_, hrows.beyond,
    hlast.level.trans (by simp [Config.opDigit]), hrows.params, hrows.dir, hrows.seq, hrows.micro, hrows.port,
    hrows.draws, rfl⟩
  · rw [shadowAt_setResults, shadowAt, hrows.shadow, if_pos ⟨r, mem_rowList.mpr hr, rfl⟩]
  · rw [setResults_shadow, hrows.shadow, if_neg]
    rintro ⟨r, hr, rfl⟩
    exact hne r (mem_rowList.mp hr) rfl
  · rw [setResults_trace, hrows.trace, clearEvents_eq_rows]
  · refine (hlast.txbuf i (hm ▸ hi)).trans ?_
    by_cases hdata : i = 2 * device.toNat
    · rw [if_pos hdata, if_neg (by omega)]
    · rw [if_neg hdata]; rfl

/-! ## What an observer of the pins reads -/

/-- The bits of a byte, taken together again, are the byte (R54, R282). -/
theorem byte_of_bits (v : Byte) :
    BitVec.ofNat 8 (bitsToNat [v.getLsbD 0, v.getLsbD 1, v.getLsbD 2, v.getLsbD 3, v.getLsbD 4, v.getLsbD 5,
      v.getLsbD 6, v.getLsbD 7]) = v := by
  refine BitVec.eq_of_getLsbD_eq fun i hi => ?_
  rw [BitVec.getLsbD_ofNat, bitsToNat_testBit]
  interval_cases i <;> rfl

theorem bytesOfBits_flatMap (bytes : List Byte) : bytesOfBits (bytes.flatMap bitsMsbFirst) = bytes := by
  induction bytes with
  | nil => rfl
  | cons v bytes ih =>
    simp only [List.flatMap_cons, bitsMsbFirst, List.cons_append, List.nil_append, bytesOfBits, byte_of_bits] at ih ⊢
    rw [ih]

/-- While LOAD is low and CLK idles low the observer samples every bit sent, once (R130, R282). -/
theorem see_bits (bs : List Bool) (data : Bool) (got : List Bool) (frames : List (List Byte)) :
    (bs.flatMap bitEvents).foldl Watcher.see ⟨data, false, false, got, frames⟩ =
      ⟨bs.getLastD data, false, false, got ++ bs, frames⟩ := by
  induction bs generalizing data got with
  | nil => simp
  | cons b bs ih =>
    have hbit : (bitEvents b).foldl Watcher.see ⟨data, false, false, got, frames⟩ =
        ⟨b, false, false, got ++ [b], frames⟩ := rfl
    rw [List.flatMap_cons, List.foldl_append, hbit, ih, List.getLastD_cons, List.append_assoc,
      List.singleton_append]

/-- Between frames the observer reads the events of one frame as its bytes, and is between frames again (R282). -/
theorem see_frame (bytes : List Byte) (data : Bool) (frames : List (List Byte)) :
    (frameEvents bytes).foldl Watcher.see ⟨data, false, true, [], frames⟩ =
      ⟨(bytes.flatMap bitsMsbFirst).getLastD data, false, true, [], frames ++ [bytes]⟩ := by
  have hlow : Watcher.see ⟨data, false, true, [], frames⟩ (.write .load false) =
      ⟨data, false, false, [], frames⟩ := rfl
  rw [frameEvents, ← byteEvents_flatMap, List.foldl_cons, hlow, List.foldl_append, see_bits, List.nil_append,
    List.foldl_cons, List.foldl_nil, Watcher.see]
  simp [bytesOfBits_flatMap]

theorem see_frames (sent : List (List Byte)) (data : Bool) (frames : List (List Byte)) :
    ((sent.flatMap frameEvents).foldl Watcher.see ⟨data, false, true, [], frames⟩).frames = frames ++ sent := by
  induction sent generalizing data frames with
  | nil => simp
  | cons bytes sent ih =>
    rw [List.flatMap_cons, List.foldl_append, see_frame, ih, List.append_assoc, List.singleton_append]

/-- The observer reads back the frames sent (R282 (1)). -/
theorem framesOf_flatMap_frameEvents (sent : List (List Byte)) : framesOf (sent.flatMap frameEvents) = sent :=
  see_frames sent false []

/-! ## The size of CLEAR_DISPLAY -/

theorem bitsMsbFirst_flatMap_length (bytes : List Byte) : (bytes.flatMap bitsMsbFirst).length = 8 * bytes.length := by
  induction bytes with
  | nil => rfl
  | cons v bytes ih =>
    have hv : (bitsMsbFirst v).length = 8 := rfl
    rw [List.flatMap_cons, List.length_append, hv, ih, List.length_cons]; omega

/-- A frame is two writes of LOAD and three writes for each bit (R142). -/
theorem frameEvents_length (bytes : List Byte) : (frameEvents bytes).length = 24 * bytes.length + 2 := by
  rw [frameEvents, ← byteEvents_flatMap, List.length_cons, List.length_append, bitEvents_flatMap_length,
    bitsMsbFirst_flatMap_length, List.length_singleton]
  omega

theorem isWrite_of_mem_bitEvents {b : Bool} {e : Event} (h : e ∈ bitEvents b) : isWrite e = true := by
  simp only [bitEvents, List.mem_cons, List.not_mem_nil, or_false] at h
  rcases h with rfl | rfl | rfl <;> rfl

/-- A frame is pin writes alone (R141). -/
theorem isWrite_of_mem_frameEvents {bytes : List Byte} {e : Event} (h : e ∈ frameEvents bytes) :
    isWrite e = true := by
  rw [frameEvents, ← byteEvents_flatMap, List.mem_cons, List.mem_append, List.mem_singleton] at h
  rcases h with rfl | h | rfl
  · rfl
  · obtain ⟨b, -, hb⟩ := List.mem_flatMap.mp h
    exact isWrite_of_mem_bitEvents hb
  · rfl

theorem frameBytes_length {n d : Nat} (hd : d < n) (o v : Byte) : (frameBytes n d o v).length = 2 * n := by
  simp only [frameBytes, List.length_append, List.length_replicate, List.length_cons, List.length_nil]
  omega

/-- The frame of a command is zero but for the target's pair (R145). -/
theorem frameBytes_getElem? {n d k : Nat} (hd : d < n) (hk : k < 2 * n) (o v : Byte) :
    (frameBytes n d o v)[k]? =
      some (if k = 2 * (n - 1 - d) then v else if k = 2 * (n - 1 - d) + 1 then o else 0) := by
  rw [frameBytes, List.append_assoc]
  obtain hfar | ⟨j, rfl⟩ := (lt_or_ge k (2 * (n - 1 - d))).imp_right Nat.exists_eq_add_of_le
  · rw [List.getElem?_append_left (by rwa [List.length_replicate]), List.getElem?_replicate_of_lt hfar,
      if_neg (by omega), if_neg (by omega)]
  · rw [List.getElem?_append_right (by rw [List.length_replicate]; omega), List.length_replicate,
      Nat.add_sub_cancel_left]
    match j with
    | 0 => simp
    | 1 => simp
    | j + 2 =>
      rw [if_neg (by omega), if_neg (by omega)]
      exact List.getElem?_replicate_of_lt (by omega)

theorem clearEvents_length {n d : Nat} (hd : d < n) : (clearEvents n d).length = 384 * n + 16 := by
  have hrow (r : Nat) : (commandEvents n d (Config.opDigit r) 0).length = 48 * n + 2 := by
    rw [commandEvents, frameEvents_length, frameBytes_length hd]; omega
  simp only [clearEvents_eq_rows, rowList, List.flatMap_cons, List.flatMap_nil, List.length_append, List.length_nil,
    hrow]
  omega

/-- Settles O34: the observer reads back the eight frames sent, each the frame of one command. -/
theorem clearDisplaySize : Obligations.ClearDisplaySize := by
  intro s device ha h0 hn
  have hv := validDevice_of_bounds h0 hn
  have hd := validDevice_toNat hv
  have hframes : framesOf (clearEvents s.devices device.toNat) = clearFrames s.devices device.toNat :=
    clearEvents_eq_frames s.devices device.toNat ▸ framesOf_flatMap_frameEvents _
  refine ⟨_, clearEvents s.devices device.toNat, exec_clearDisplay ha hv, (clearRows_cleared rowList s hv).trace,
    clearEvents_length hd, fun e he => ?_, by rw [hframes]; rfl, fun r k hr hk => ?_⟩
  · rw [clearEvents_eq_frames] at he
    obtain ⟨bytes, -, he⟩ := List.mem_flatMap.mp he
    exact isWrite_of_mem_frameEvents he
  · have hrow : (clearFrames s.devices device.toNat)[r]? =
        some (frameBytes s.devices device.toNat (Config.opDigit r) 0) := by
      have : rowList[r]? = some r := List.getElem?_range hr
      rw [clearFrames, List.getElem?_map, this]; rfl
    rw [hframes, hrow, Option.bind_some, frameBytes_getElem? hd hk]
    by_cases hdata : k = 2 * (s.devices - 1 - device.toNat)
    · rw [if_pos hdata, if_neg (by omega)]
    · rw [if_neg hdata]; rfl

/-! ## One column, row by row -/

/-- SET_LED on a row and a column of a device of the chain completes, the block accepts the next operation, and among
the rows of the device only that row's byte has changed (R190). -/
theorem exec_setLed_rows {s : State} {device column : Int} {r : Nat} (ha : Accepts s)
    (hv : validDevice s.devices device = true) (hr : r < 8) (hc : inRange 7 column = true) (state : Bool) :
    ∃ t, exec (.hostSetLed device r column state) s = .next t ∧ Accepts t ∧ t.devices = s.devices ∧
      ∀ q, q < 8 → shadowAt t device.toNat q =
        if q = r then switchLed (shadowAt s device.toNat r) column.toNat state
        else shadowAt s device.toNat q := by
  have hrow : inRange 7 (r : Int) = true := inRange_iff.mpr (by omega)
  refine ⟨_, whenReady_accepts ha _, ?_⟩
  rw [setLed_valid hv hrow hc, reportResult_mk, Int.toNat_natCast]
  refine ⟨⟨(sendCommand_seq ..).trans ha.1, (sendCommand_micro ..).trans ha.2⟩, sendCommand_devices ..,
    fun q hq => ?_⟩
  rw [shadowAt_setResults, shadowAt, sendCommand_shadow, writeShadow, setShadow_shadow, Memory.read_write,
    if_congr (shadowKey_inj hq hr) rfl rfl]
  simp [shadowAt]

theorem execAll_cons {i : Instr} {s t : State} (h : exec i s = .next t) (is : List Instr) :
    execAll (i :: is) s = execAll is t := by
  rw [execAll, h]

/-- SET_LED on, row by row: each row of the list has the column's bit set, every other row of the device is as before;
the order of the rows and a row named twice make no difference. -/
theorem execAll_setLed_rows {device column : Int} (hc : inRange 7 column = true) {rows : List Nat}
    (hrows : ∀ r ∈ rows, r < 8) {s : State} (ha : Accepts s) (hv : validDevice s.devices device = true) :
    ∃ t, execAll (rows.map fun r : Nat => .hostSetLed device r column true) s = .next t ∧
      ∀ q, q < 8 → shadowAt t device.toNat q =
        if q ∈ rows then shadowAt s device.toNat q ||| columnMask column.toNat else shadowAt s device.toNat q := by
  induction rows generalizing s with
  | nil => exact ⟨s, rfl, fun q _ => (if_neg List.not_mem_nil).symm⟩
  | cons r rows ih =>
    obtain ⟨hr, hrows⟩ := List.forall_mem_cons.mp hrows
    obtain ⟨t, ht, hat, hdev, hshadow⟩ := exec_setLed_rows ha hv hr hc true
    obtain ⟨u, hu, hrest⟩ := ih hrows hat (hdev ▸ hv)
    refine ⟨u, (execAll_cons ht _).trans hu, fun q hq => ?_⟩
    rw [hrest q hq, hshadow q hq]
    by_cases hqr : q = r
    · subst hqr
      have hor (b m : Byte) : b ||| m ||| m = b ||| m := by rw [BitVec.or_assoc, BitVec.or_self]
      simp [switchLed, hor]
    · simp [hqr]

/-- Settles O35: CLEAR_DISPLAY leaves every row at 0, and each row then takes the column's bit. -/
theorem columnPatternByRows : Obligations.ColumnPatternByRows := by
  intro s device column ha h0 hn hc0 hc7
  have hv := validDevice_of_bounds h0 hn
  have hc := inRange_iff.mpr ⟨hc0, hc7⟩
  obtain ⟨t, ht, hzero, -, -, -, -, -, hparams, -, hseq, hmicro, -⟩ := clearDisplayClearsItsDevice s device ha h0 hn
  have hat : Accepts t := ⟨hseq.trans ha.1, hmicro.trans ha.2⟩
  have hvt : validDevice t.devices device = true := by rwa [State.devices, hparams]
  obtain ⟨u, hu, hrows⟩ := execAll_setLed_rows hc (fun r => mem_rowList.mp) hat hvt
  refine ⟨u, (execAll_cons ht _).trans hu, fun r hr => ?_⟩
  rw [hrows r hr, if_pos (mem_rowList.mpr hr), hzero r hr]
  exact BitVec.zero_or

end Sys2Proof.Machine

/-!
PROOFS of the configuration operations' statements (44_config_ops.md): the frame each of the five sends (R170 to R175),
and that the block remembers none of them (R176).
-/

namespace Sys2Proof.Machine

open Sys2Proof.Safety

/-! ## The frame of each operation -/

/-- Reduction keeps an integer that fits in a byte (R8). -/
theorem trunc8_toNat_of_le {z : Int} (h0 : 0 ≤ z) (h255 : z ≤ 255) : ((trunc8 z).toNat : Int) = z := by
  rw [trunc8, BitVec.toNat_ofInt]; omega

/-- The literal polarity (D11, log 12). -/
theorem shutdownData_eq_ite (enabled : Bool) : shutdownData enabled = if enabled then 1 else 0 := by
  cases enabled <;> rfl

/-- Settles O25: the operation is one command with the reduced mode. -/
theorem setDecodeModeSendsItsFrame : Obligations.SetDecodeModeSendsItsFrame := by
  intro s device mode ha h0 hn
  have hv := validDevice_of_bounds h0 hn
  exact whenReady_sendsFrame ha (validDevice_toNat hv) (setDecodeMode_valid hv mode)

/-- Settles O26: a level in range is its own data byte. -/
theorem setIntensitySendsItsFrame : Obligations.SetIntensitySendsItsFrame := by
  intro s device level ha h0 hn hl0 hl15
  have hv := validDevice_of_bounds h0 hn
  obtain ⟨t, ht, hsent, hrest⟩ := whenReady_sendsFrame ha (validDevice_toNat hv)
    (setIntensity_valid hv (inRange_iff.mpr ⟨hl0, hl15⟩))
  exact ⟨t, ht, ⟨trunc8 level, trunc8_toNat_of_le hl0 (by omega), hsent⟩, hrest⟩

/-- Settles O27: a limit in range is its own data byte. -/
theorem setScanLimitSendsItsFrame : Obligations.SetScanLimitSendsItsFrame := by
  intro s device limit ha h0 hn hl0 hl7
  have hv := validDevice_of_bounds h0 hn
  obtain ⟨t, ht, hsent, hrest⟩ := whenReady_sendsFrame ha (validDevice_toNat hv)
    (setScanLimit_valid hv (inRange_iff.mpr ⟨hl0, hl7⟩))
  exact ⟨t, ht, ⟨trunc8 limit, trunc8_toNat_of_le hl0 (by omega), hsent⟩, hrest⟩

/-- Settles O28: the operation is one command with the literal polarity (D11, log 12). -/
theorem shutdownSendsItsFrame : Obligations.ShutdownSendsItsFrame := by
  intro s device enabled ha h0 hn
  have hv := validDevice_of_bounds h0 hn
  rw [← shutdownData_eq_ite]
  exact whenReady_sendsFrame ha (validDevice_toNat hv) (shutdownDevice_valid hv enabled)

/-- Settles O29: the operation is one command with the flag as its data byte. -/
theorem displayTestSendsItsFrame : Obligations.DisplayTestSendsItsFrame := by
  intro s device enabled ha h0 hn
  have hv := validDevice_of_bounds h0 hn
  exact whenReady_sendsFrame ha (validDevice_toNat hv) (displayTest_valid hv enabled)

/-! ## What an operation answers -/

/-- All that a host operation can answer: INITIALIZE ends in `initEnd`, every other one in what its acts leave. -/
theorem exec_host_next {op : HostOp} {i : Instr} {s t : State} (hd : decodeHost op = .ok i)
    (h : exec i s = .next t) :
    (i = .hostInitialize ∧ t = (initEnd s).setResults (s.results ++ [.ok])) ∨
      (i ≠ .hostInitialize ∧ t = (runActs (hostActs s.devices s.shadow i).1 s).setResults
        (s.results ++ [(hostActs s.devices s.shadow i).2])) := by
  by_cases hi : i = .hostInitialize
  · subst hi
    obtain ⟨hm, hs, -⟩ := whenPowerOnOrReady_next h
    rw [exec_hostInitialize hm hs] at h
    cases h
    exact .inl ⟨rfl, rfl⟩
  · rw [exec_hostActs hd hi] at h
    obtain ⟨-, rfl⟩ := whenReady_next h
    rw [bodyOf, reportResult_mk, (runActs_ran _ s (hostActs_ok _ _ i)).results]
    exact .inr ⟨hi, rfl⟩

/-- What a host operation sends and answers, and the shadow it leaves, is given by the parameters and the shadow alone
(R71, R176). -/
theorem exec_host_congr {op : HostOp} {i : Instr} {s t u v : State} (hd : decodeHost op = .ok i)
    (hparams : t.params = s.params) (hshadow : t.shadow = s.shadow) (hu : exec i s = .next u)
    (hv : exec i t = .next v) :
    ∃ es rs, u.trace = s.trace ++ es ∧ v.trace = t.trace ++ es ∧
      u.results = s.results ++ rs ∧ v.results = t.results ++ rs ∧ v.shadow = u.shadow := by
  have hdevices : t.devices = s.devices := congrArg Params.devices hparams
  rcases exec_host_next hd hu with ⟨rfl, rfl⟩ | ⟨hi, rfl⟩
  · obtain ⟨-, rfl⟩ := (exec_host_next hd hv).resolve_right fun h => h.1 rfl
    refine ⟨_, _, initEnd_trace s, ?_, rfl, rfl, ?_⟩
    · rw [setResults_trace, initEnd_trace, hdevices, hparams]
    · rw [setResults_shadow, setResults_shadow, (initEnd_ran t).shadow, (initEnd_ran s).shadow, initGround_shadow,
        initGround_shadow, hdevices, hparams, hshadow]
  · obtain ⟨-, rfl⟩ := (exec_host_next hd hv).resolve_left fun h => hi h.1
    have hs := runActs_ran _ s (hostActs_ok s.devices s.shadow i)
    have ht := runActs_ran _ t (hostActs_ok t.devices t.shadow i)
    rw [hdevices, hshadow] at ht ⊢
    refine ⟨_, _, hs.trace, ?_, rfl, rfl, ?_⟩
    · rw [setResults_trace, ht.trace, hdevices]
    · rw [setResults_shadow, setResults_shadow, ht.shadow, hs.shadow, hshadow]

/-! ## No record of a configuration operation -/

/-- What holds of no acts and of the acts under a device check holds with the check. -/
theorem onDevice_acts {P : List Act → Prop} {n : Nat} {device : Int} {go : List Act × Result} (h0 : P [])
    (hgo : P go.1) : P (onDevice n device go).1 := by
  unfold onDevice
  split
  · exact hgo
  · exact h0

/-- What holds of no acts and of the acts under a value check holds with the check. -/
theorem onValue_acts {P : List Act → Prop} {hi z : Int} {go : List Act × Result} (h0 : P []) (hgo : P go.1) :
    P (onValue hi z go).1 := by
  unfold onValue
  split
  · exact hgo
  · exact h0

/-- A configuration operation stores to no byte of the shadow (R170 to R174). -/
theorem configActs_shadowAfter {c : Instr} (hc : IsConfig c) (n : Nat) (m : Memory) :
    (hostActs n m c).1.foldl Act.shadowAfter m = m := by
  have dev {device : Int} {go : List Act × Result} (hgo : go.1.foldl Act.shadowAfter m = m) :=
    onDevice_acts (P := fun l => l.foldl Act.shadowAfter m = m) (n := n) (device := device) rfl hgo
  have val {hi z : Int} {go : List Act × Result} (hgo : go.1.foldl Act.shadowAfter m = m) :=
    onValue_acts (P := fun l => l.foldl Act.shadowAfter m = m) (hi := hi) (z := z) rfl hgo
  rcases hc with ⟨_, _, rfl⟩ | ⟨_, _, rfl⟩ | ⟨_, _, rfl⟩ | ⟨_, _, rfl⟩ | ⟨_, _, rfl⟩
  · exact dev rfl
  · exact dev (val rfl)
  · exact dev (val rfl)
  · exact dev rfl
  · exact dev rfl

/-- A configuration operation has a record, and is not INITIALIZE (R85). -/
theorem isConfig_decodes {c : Instr} (hc : IsConfig c) :
    (∃ op, decodeHost op = .ok c) ∧ c ≠ .hostInitialize := by
  rcases hc with ⟨_, _, rfl⟩ | ⟨_, _, rfl⟩ | ⟨_, _, rfl⟩ | ⟨_, _, rfl⟩ | ⟨_, _, rfl⟩ <;>
    exact ⟨⟨_, decodeHost_of_encode rfl⟩, nofun⟩

/-- A configuration operation leaves the parameters and the shadow, on any operands (R175, R239). -/
theorem exec_config_params_shadow {c : Instr} {s t : State} (hc : IsConfig c) (h : exec c s = .next t) :
    t.params = s.params ∧ t.shadow = s.shadow := by
  obtain ⟨⟨op, hop⟩, hne⟩ := isConfig_decodes hc
  obtain ⟨-, rfl⟩ := (exec_host_next hop h).resolve_left fun h => hne h.1
  have hran := runActs_ran _ s (hostActs_ok s.devices s.shadow c)
  exact ⟨hran.params, hran.shadow.trans (configActs_shadowAfter hc s.devices s.shadow)⟩

/-- Settles O59: the first operation leaves all that the second one's answer is made of. -/
theorem configurationIsNotRemembered : Obligations.ConfigurationIsNotRemembered := by
  intro s t u v c op i _ hc hct hd hu hv
  obtain ⟨hparams, hshadow⟩ := exec_config_params_shadow hc hct
  exact exec_host_congr hd hparams hshadow hu hv

end Sys2Proof.Machine

/-!
PROOFS of the LED operations' statements (45_led_ops.md): the bit SET_LED switches and the frame it sends (R190 to
R193), and the operations and selectors that answer UNIMPLEMENTED (R89, R194, R195).
-/

namespace Sys2Proof.Machine

open Sys2Proof.Safety

/-! ## SET_LED -/

/-- The frame a command sends does not depend on the shadow: SET_LED stores its byte first (R23, R190). -/
theorem sendCommand_writeShadow_sentFrame {d : Nat} {s : State} (r : Nat) (o v : Byte) (hd : d < s.devices) :
    SentFrame d o v s (sendCommand d o v (writeShadow d r v s)) :=
  have h := sendCommand_sentFrame (s := writeShadow d r v s) o v hd
  ⟨h.trace, h.txbuf, h.beyond, h.level, h.params, h.dir, h.seq, h.micro, h.port, h.draws⟩

/-- A command leaves every shadow byte but the one stored before it. -/
theorem sendCommand_writeShadow_elsewhere (d r : Nat) (o v : Byte) (s : State) :
    ShadowElsewhere d r s (sendCommand d o v (writeShadow d r v s)) := by
  intro a ha
  rw [sendCommand_shadow, writeShadow, setShadow_shadow, Memory.read_write, if_neg ha]

/-- Settles O30: the operation is one shadow byte, then one command with it. -/
theorem setLedSwitchesAndSends : Obligations.SetLedSwitchesAndSends := by
  intro s device row column state ha h0 hn hr0 hr7 hc0 hc7
  have hv := validDevice_of_bounds h0 hn
  refine ⟨_, switchLed (shadowAt s device.toNat row.toNat) column.toNat state, whenReady_accepts ha _, rfl, ?_⟩
  rw [setLed_valid hv (inRange_iff.mpr ⟨hr0, hr7⟩) (inRange_iff.mpr ⟨hc0, hc7⟩), reportResult_mk,
    sendCommand_results]
  exact ⟨row_shadowAt .., sendCommand_writeShadow_elsewhere _ _ _ _ _,
    sentFrame_setResults (sendCommand_writeShadow_sentFrame _ _ _ (validDevice_toNat hv)) _, rfl⟩

/-! ## One lane of a row byte -/

/-- The mask of a column is that column's lane alone (R193). -/
theorem columnMask_lane {column c : Nat} (hcol : column < 8) (hc : c < 8) :
    (columnMask column).getLsbD (7 - c) = decide (c = column) := by
  have h80 : (0x80 : Byte) = BitVec.twoPow 8 7 := rfl
  rw [columnMask, BitVec.getLsbD_ushiftRight, h80, BitVec.getLsbD_twoPow, decide_eq_true (by decide : 7 < 8),
    Bool.true_and, decide_eq_decide]
  omega

/-- Switching an LED writes its lane and no other (R193). -/
theorem switchLed_lane (old : Byte) {column c : Nat} (state : Bool) (hcol : column < 8) (hc : c < 8) :
    (switchLed old column state).getLsbD (7 - c) = if c = column then state else old.getLsbD (7 - c) := by
  have hmask := columnMask_lane hcol hc
  have hwidth : 7 - c < 8 := by omega
  cases state with
  | true =>
    rw [switchLed, if_pos rfl, BitVec.getLsbD_or, hmask]
    by_cases h : c = column <;> simp [h]
  | false =>
    rw [switchLed, if_neg Bool.false_ne_true, BitVec.getLsbD_and, BitVec.getLsbD_not, hmask, decide_eq_true hwidth]
    by_cases h : c = column <;> simp [h]

/-- Settles O31, by the lanes of the byte SET_LED leaves. -/
theorem setLedWritesOneLane : Obligations.SetLedWritesOneLane := by
  intro s device row column state ha h0 hn hr0 hr7 hc0 hc7
  obtain ⟨t, _, ht, rfl, hbyte, -⟩ := setLedSwitchesAndSends s device row column state ha h0 hn hr0 hr7 hc0 hc7
  refine ⟨t, ht, fun c hc => ?_⟩
  rw [hbyte]
  exact switchLed_lane _ state (by omega) hc

/-! ## On, then off -/

/-- The law of the round trip (R192). -/
theorem or_and_not_mask (b m : Byte) : (b ||| m) &&& ~~~ m = b &&& ~~~ m := by
  rw [BitVec.and_or_distrib_right, BitVec.and_not_self]
  exact BitVec.or_zero

/-- Clearing bits that are 0 changes nothing (R192). -/
theorem and_not_mask_of_clear {b m : Byte} (h : b &&& m = 0) : b &&& ~~~ m = b :=
  calc b &&& ~~~ m = (b &&& m) ||| (b &&& ~~~ m) := by rw [h]; exact BitVec.zero_or.symm
    _ = b &&& (m ||| ~~~ m) := BitVec.and_or_distrib_left.symm
    _ = b := by rw [BitVec.or_not_self, BitVec.and_allOnes]

/-- Settles O32: the frame of the first call leaves the block ready for the second, whose byte is (b | m) & ~m. -/
theorem setLedOnThenOff : Obligations.SetLedOnThenOff := by
  intro s device row column ha h0 hn hr0 hr7 hc0 hc7
  obtain ⟨t, _, ht, rfl, honByte, -, honSent, -⟩ :=
    setLedSwitchesAndSends s device row column true ha h0 hn hr0 hr7 hc0 hc7
  have hat : Accepts t := ⟨honSent.seq.trans ha.1, honSent.micro.trans ha.2⟩
  have hdev : t.devices = s.devices := congrArg Params.devices honSent.params
  obtain ⟨u, _, hu, rfl, hoffByte, -, hoffSent, -⟩ :=
    setLedSwitchesAndSends t device row column false hat h0 (hdev ▸ hn) hr0 hr7 hc0 hc7
  have hlaw : shadowAt u device.toNat row.toNat =
      shadowAt s device.toNat row.toNat &&& ~~~ (0x80#8 >>> column.toNat) := by
    rw [hoffByte, honByte]
    exact or_and_not_mask _ _
  refine ⟨t, u, ht, hu, hlaw, fun hclear => hlaw.trans (and_not_mask_of_clear hclear), ?_, ?_⟩
  · rw [honByte, honSent.trace]
  · rw [hoffByte, hoffSent.trace, hdev]

/-! ## The stubs and the reserved selectors -/

/-- A record with selector 9 or above, whatever its fields, steps to the drop with UNIMPLEMENTED (R89 (b), R194,
R195). -/
theorem step_stub {s : State} {op : HostOp} {rest : List HostOp} (hl : s.rx.latched = []) (hm : s.micro = .idle)
    (hp : s.port = op :: rest) (hsel : 9 ≤ op.sel.toNat) :
    step s = whenReady (drop .unimplemented) (s.setPort rest) := by
  have hcases : op.sel.toNat = 9 ∨ op.sel.toNat = 10 ∨ 11 ≤ op.sel.toNat := by omega
  rcases hcases with h | h | h
  · have hd : decodeHost op = .ok .hostSetRow := by simp only [decodeHost, h]
    exact stepRunsThePresentedOperation s op rest _ hl hm hp hd
  · have hd : decodeHost op = .ok .hostSetCol := by simp only [decodeHost, h]
    exact stepRunsThePresentedOperation s op rest _ hl hm hp hd
  · simp only [step, fetch_host hl hm hp, decodeHost_reserved h]
    rfl

/-- Settles O36: each of them is the drop, accepted at Ready (log 15). -/
theorem stubsAnswerUnimplemented : Obligations.StubsAnswerUnimplemented := by
  intro s ha
  refine ⟨whenReady_accepts ha _, whenReady_accepts ha _, fun op rest hl hp hsel => ?_⟩
  rw [step_stub hl ha.2 hp hsel]
  exact whenReady_accepts (s := s.setPort rest) ha _

end Sys2Proof.Machine

/-!
PROOFS of the initialization sequencer's statements (46_init_sequencer.md): the events of INITIALIZE (R210 to R219,
R222), their number (R220), and what the chips hold at Ready (R221).
-/

namespace Sys2Proof.Machine

open Sys2Proof.Safety

/-! ## The events -/

theorem shutdownActs_events (n d : Nat) :
    (shutdownActs d).flatMap (Act.events n) = commandEvents n d Config.opShutdown 1 := by
  simp [shutdownActs, Act.events]

theorem clearActs_events (n d : Nat) : (clearActs d rowList).flatMap (Act.events n) = clearEvents n d := by
  rw [clearActs, List.flatMap_assoc, clearEvents_eq_rows]
  simp [Act.events]

theorem configureActs_events (n d : Nat) :
    (configureActs d).flatMap (Act.events n) = configureEvents n d := by
  rw [configureActs, List.flatMap_append, List.flatMap_append, clearActs_events]
  simp [configureHead, configureTail, configureEvents, Act.events]

theorem selfTestActs_events (n ms d : Nat) :
    (selfTestActs ms d).flatMap (Act.events n) = selfTestEvents n ms d := by
  simp [selfTestActs, selfTestEvents, Act.events]

/-- The events of PinSetup and LatchIdleHigh (R211, R212). -/
def groundEvents : List Event := [.dirOut .data, .dirOut .clk, .dirOut .load, .write .load true]

/-- The acts of INITIALIZE make the events of INITIALIZE: a move of the sequencer and a shadow byte make none (R213 to
R219). -/
theorem initActs_events (n ms : Nat) :
    groundEvents ++ (initActs n ms).flatMap (Act.events n) = initEvents n ms := by
  have hgoto (q : Seq) : (Act.goto q).events n = [] := rfl
  simp only [initActs, initHead, initEvents, groundEvents, List.flatMap_append, List.flatMap_cons, List.flatMap_nil,
    List.flatMap_assoc, shutdownActs_events, configureActs_events, selfTestActs_events, hgoto,
    List.nil_append, List.append_nil, List.append_assoc]

/-- Settles O48: the events are those of the acts INITIALIZE is made of. -/
theorem initializeTrace : Obligations.InitializeTrace := by
  intro s hm hs
  refine ⟨_, exec_hostInitialize hm hs, ?_, ?_, rfl⟩
  · rw [setResults_seq, initEnd_seq]
  · rw [setResults_trace, initEnd_trace, ← initActs_events]; rfl

/-! ## The size

The events of a list of acts fall into two parts: the pin writes, which are the frames sent, and the delays. -/

/-- The frames of an act on a chain of `n`. -/
def Act.frames (n : Nat) : Act → List (List Byte)
  | .cmd d o v => [frameBytes n d o v]
  | .store _ _ _ => []
  | .goto _ => []
  | .wait _ => []

/-- The delays of an act. -/
def Act.delays : Act → List Event
  | .cmd _ _ _ => []
  | .store _ _ _ => []
  | .goto _ => []
  | .wait ms => [.delay ms]

theorem Act.events_writes (n : Nat) (a : Act) :
    (a.events n).filter isWrite = (a.frames n).flatMap frameEvents := by
  cases a with
  | cmd d o v =>
    rw [Act.frames, List.flatMap_singleton]
    exact List.filter_eq_self.mpr fun e he => isWrite_of_mem_frameEvents he
  | store d r v => rfl
  | goto q => rfl
  | wait ms => rfl

theorem Act.events_rest (n : Nat) (a : Act) : (a.events n).filter (fun e => !isWrite e) = a.delays := by
  cases a with
  | cmd d o v => exact List.filter_eq_nil_iff.mpr fun e he => by simp [isWrite_of_mem_frameEvents he]
  | store d r v => rfl
  | goto q => rfl
  | wait ms => rfl

/-- The frames of INITIALIZE (R213 to R218). -/
def initFrames (n ms : Nat) : List (List Byte) := (initActs n ms).flatMap (Act.frames n)

theorem length_flatMap_of_const {α β : Type} {l : List α} {f : α → List β} {c : Nat}
    (h : ∀ a ∈ l, (f a).length = c) : (l.flatMap f).length = l.length * c := by
  rw [List.length_flatMap, List.map_congr_left h, List.map_const', List.sum_const_nat]

/-- One frame in ShutdownAll, 13 in Configure and 2 in the self-test for each device (R220). -/
theorem initFrames_length (n ms : Nat) : (initFrames n ms).length = 16 * n := by
  have hshutdown (d : Nat) : ((shutdownActs d).flatMap (Act.frames n)).length = 1 := rfl
  have hconfigure (d : Nat) : ((configureActs d).flatMap (Act.frames n)).length = 13 := rfl
  have hselfTest (d : Nat) : ((selfTestActs ms d).flatMap (Act.frames n)).length = 2 := rfl
  have hgoto (q : Seq) : (Act.goto q).frames n = [] := rfl
  simp only [initFrames, initActs, initHead, List.flatMap_append, List.flatMap_cons, List.flatMap_nil,
    List.flatMap_assoc, hgoto, List.nil_append, List.append_nil, List.length_append, List.length_range,
    length_flatMap_of_const fun d (_ : d ∈ List.range n) => hshutdown d,
    length_flatMap_of_const fun d (_ : d ∈ List.range n) => hconfigure d,
    length_flatMap_of_const fun d (_ : d ∈ List.range n) => hselfTest d]
  omega

/-- Every frame of INITIALIZE has two bytes for each device (R145). -/
theorem length_of_mem_initFrames {n ms : Nat} {bytes : List Byte} (h : bytes ∈ initFrames n ms) :
    bytes.length = 2 * n := by
  obtain ⟨a, ha, hbytes⟩ := List.mem_flatMap.mp h
  have hok := initActs_ok n ms a ha
  cases a with
  | cmd d o v => rw [List.mem_singleton.mp hbytes]; exact frameBytes_length hok o v
  | store d r v => cases hbytes
  | goto q => cases hbytes
  | wait ms => cases hbytes

/-- One delay for each device (R218). -/
theorem initActs_delays (n ms : Nat) : (initActs n ms).flatMap Act.delays = List.replicate n (.delay ms) := by
  have hshutdown (d : Nat) : (shutdownActs d).flatMap Act.delays = [] := rfl
  have hconfigure (d : Nat) : (configureActs d).flatMap Act.delays = [] := rfl
  have hselfTest (d : Nat) : (selfTestActs ms d).flatMap Act.delays = [.delay ms] := rfl
  have hgoto (q : Seq) : (Act.goto q).delays = [] := rfl
  have hnone : (List.range n).flatMap (fun _ => ([] : List Event)) = [] := by simp
  simp only [initActs, initHead, List.flatMap_append, List.flatMap_cons, List.flatMap_nil, List.flatMap_assoc,
    hshutdown, hconfigure, hselfTest, hgoto, hnone, List.nil_append, List.append_nil]
  rw [← List.map_eq_flatMap, List.map_const', List.length_range]

/-- The pin writes of INITIALIZE: LOAD high, then its frames. -/
theorem initEvents_writes (n ms : Nat) :
    (initEvents n ms).filter isWrite = .write .load true :: (initFrames n ms).flatMap frameEvents := by
  rw [← initActs_events, List.filter_append, List.filter_flatMap, initFrames, List.flatMap_assoc]
  simp only [Act.events_writes]
  rfl

/-- The other events of INITIALIZE: three DIR_OUT, then the delays. -/
theorem initEvents_rest (n ms : Nat) :
    (initEvents n ms).filter (fun e => !isWrite e) =
      [.dirOut .data, .dirOut .clk, .dirOut .load] ++ List.replicate n (.delay ms) := by
  rw [← initActs_events, List.filter_append, List.filter_flatMap, ← initActs_delays]
  simp only [Act.events_rest]
  rfl

/-- The observer sees pin writes alone (R282). -/
theorem framesOf_filter_isWrite (es : List Event) : framesOf (es.filter isWrite) = framesOf es := by
  have hsee : (fun o e => if isWrite e = true then Watcher.see o e else o) = Watcher.see := by
    funext o e
    cases e <;> rfl
  rw [framesOf, List.foldl_filter, hsee, framesOf]

/-- Between frames LOAD is high, and writing it high again is no edge. -/
theorem framesOf_load_high (es : List Event) : framesOf (.write .load true :: es) = framesOf es := rfl

theorem framesOf_initEvents (n ms : Nat) : framesOf (initEvents n ms) = initFrames n ms := by
  rw [← framesOf_filter_isWrite, initEvents_writes, framesOf_load_high, framesOf_flatMap_frameEvents]

/-- A frame lowers LOAD once and raises it once (R142). -/
theorem frameEvents_count_load (l : Bool) (bytes : List Byte) :
    (frameEvents bytes).count (.write .load l) = 1 := by
  have hbits : ((bytes.flatMap bitsMsbFirst).flatMap bitEvents).count (.write .load l) = 0 := by
    rw [List.count_eq_zero]
    intro h
    obtain ⟨b, -, hb⟩ := List.mem_flatMap.mp h
    simp [bitEvents] at hb
  rw [frameEvents, ← byteEvents_flatMap, List.count_cons, List.count_append, hbits]
  cases l <;> decide

theorem initFrames_events_length (n ms : Nat) :
    ((initFrames n ms).flatMap frameEvents).length = 16 * n * (48 * n + 2) := by
  rw [length_flatMap_of_const fun bytes h => ?_, initFrames_length]
  rw [frameEvents_length, length_of_mem_initFrames h]
  omega

theorem initFrames_count_load (l : Bool) (n ms : Nat) :
    ((initFrames n ms).flatMap frameEvents).count (.write .load l) = 16 * n := by
  have hone : List.count (.write .load l) ∘ frameEvents = fun _ => 1 := funext (frameEvents_count_load l)
  rw [List.count_flatMap, hone, List.map_const', List.sum_const_nat, initFrames_length, Nat.mul_one]

theorem initEvents_countP_isWrite (n ms : Nat) :
    (initEvents n ms).countP isWrite = 1 + 16 * n * (48 * n + 2) := by
  rw [List.countP_eq_length_filter, initEvents_writes, List.length_cons, initFrames_events_length, Nat.add_comm]

theorem initEvents_length (n ms : Nat) : (initEvents n ms).length = 768 * n ^ 2 + 33 * n + 4 := by
  rw [List.length_eq_length_filter_add isWrite, initEvents_rest, ← List.countP_eq_length_filter,
    initEvents_countP_isWrite, List.length_append, List.length_replicate]
  simp only [List.length_cons, List.length_nil]
  ring

/-- Settles O49: a pin write is counted among the pin writes, another event among the others. -/
theorem initializeSize : Obligations.InitializeSize := by
  intro s hm hs
  obtain ⟨t, ht, -, htrace, -⟩ := initializeTrace s hm hs
  refine ⟨t, _, ht, htrace, ?_, initEvents_length _ _, fun p => ?_, initEvents_countP_isWrite _ _, ?_,
    fun m hne hmem => ?_, ?_, ?_⟩
  · rw [framesOf_initEvents, initFrames_length]
  · rw [← List.count_filter (p := fun e => !isWrite e) rfl, initEvents_rest, List.count_append,
      List.count_eq_zero (l := List.replicate _ _).mpr (by simp [List.mem_replicate]), Nat.add_zero]
    cases p <;> decide
  · rw [← List.count_filter (p := fun e => !isWrite e) rfl, initEvents_rest, List.count_append,
      List.count_replicate_self, List.count_eq_zero.mpr (by simp), Nat.zero_add]
  · have hrest := List.mem_filter_of_mem (p := fun e => !isWrite e) hmem rfl
    rw [initEvents_rest] at hrest
    simp [List.mem_replicate, hne] at hrest
  · rw [← List.count_filter (p := isWrite) rfl, initEvents_writes, List.count_cons_of_ne (by decide),
      initFrames_count_load]
  · rw [← List.count_filter (p := isWrite) rfl, initEvents_writes, List.count_cons_self, initFrames_count_load]

/-! ## The chips at Ready -/

/-- What Configure(d) leaves in a register of its chip (R221). -/
def readyValue : ChipReg → Byte
  | .scanLimit => 7
  | .intensity => 8
  | _ => 0

/-- Acts that run for one device after the other send to a chip's registers what those of its own device send. -/
theorem lastWrite_range {n e : Nat} {reg : ChipReg} {f : Nat → List Act} (he : e < n)
    (hother : ∀ d, d ≠ e → lastWrite e reg (f d) = none) :
    lastWrite e reg ((List.range n).flatMap f) = lastWrite e reg (f e) := by
  have hbelow (k : Nat) : lastWrite e reg ((List.range k).flatMap f) =
      if e < k then lastWrite e reg (f e) else none := by
    induction k with
    | zero => rfl
    | succ k ih =>
      rw [List.range_succ, List.flatMap_append, lastWrite_append, ih, List.flatMap_singleton]
      rcases lt_trichotomy e k with h | rfl | h
      · rw [hother k h.ne', if_pos h, if_pos (by omega), Option.none_or]
      · rw [if_neg (lt_irrefl e), if_pos (Nat.lt_succ_self e), Option.or_none]
      · rw [hother k h.ne, if_neg (by omega), if_neg (by omega), Option.none_or]
  rw [hbelow, if_pos he]

/-- Configure(d) reaches every register of its device, the rows by its CLEAR_DISPLAY, and no other device (R214). -/
theorem lastWrite_configureActs (d e : Nat) (reg : ChipReg) :
    lastWrite e reg (configureActs d) = if d = e then some (readyValue reg) else none := by
  rw [configureActs, lastWrite_append, lastWrite_append, lastWrite_clearActs d e reg fun r => mem_rowList.mp]
  simp only [configureHead, configureTail, lastWrite, Act.writes]
  by_cases hd : d = e
  · subst hd
    cases reg <;> simp +decide [readyValue]
  · simp [hd, Ne.symm hd]

theorem lastWrite_selfTestActs (ms d e : Nat) (reg : ChipReg) :
    lastWrite e reg (selfTestActs ms d) = if d = e ∧ .displayTest = reg then some 0 else none := by
  have hreg : Config.opDisplayTest = reg.opcode ↔ .displayTest = reg := opcode_inj (a := .displayTest)
  simp only [selfTestActs, lastWrite, Act.writes, hreg]
  split <;> rfl

/-- The acts of INITIALIZE from the first Configure on (R214 to R219). -/
def initTail (n ms : Nat) : List Act :=
  (List.range n).flatMap configureActs ++
    (Act.goto .selfTestSweep :: ((List.range n).flatMap (selfTestActs ms) ++ [Act.goto .ready]))

/-- The first frame of INITIALIZE comes before the first Configure (R213, R214). -/
theorem initActs_first_tail {n : Nat} (hn : 0 < n) (ms : Nat) :
    ∃ mid, initActs n ms = initFirst ++ (mid ++ initTail n ms) := by
  obtain ⟨k, rfl⟩ := Nat.exists_eq_succ_of_ne_zero hn.ne'
  refine ⟨((List.range k).map Nat.succ).flatMap shutdownActs, ?_⟩
  rw [initActs, initHead, initTail, List.range_succ_eq_map, List.flatMap_cons (f := shutdownActs)]
  simp [initFirst, shutdownActs]

/-- The last value sent to every register of every device is that of its Configure: the self-test ends on the same
value (R218, R221). -/
theorem lastWrite_initTail {n e : Nat} (ms : Nat) (reg : ChipReg) (he : e < n) :
    lastWrite e reg (initTail n ms) = some (readyValue reg) := by
  have hconfigure : lastWrite e reg ((List.range n).flatMap configureActs) = some (readyValue reg) := by
    rw [lastWrite_range he fun d hd => ?_, lastWrite_configureActs, if_pos rfl]
    rw [lastWrite_configureActs, if_neg hd]
  have hselfTest : lastWrite e reg ((List.range n).flatMap (selfTestActs ms)) =
      if .displayTest = reg then some 0 else none := by
    rw [lastWrite_range he fun d hd => ?_, lastWrite_selfTestActs, if_congr (and_iff_right rfl) rfl rfl]
    rw [lastWrite_selfTestActs, if_neg fun h => hd h.1]
  rw [initTail, lastWrite_append, hconfigure, lastWrite, lastWrite_append, hselfTest]
  cases reg <;> rfl

/-- Every register of every wired device ends with the value its Configure sent, whatever the chips held before and
whatever the first frame spoiled (R221, R264, R265). -/
theorem initEnd_readyValue {s : State} (hc : s.rx.chain.length = 16 * s.params.wired) {e : Nat} (he : Wired s e)
    (reg : ChipReg) : chipReg (initEnd s) e reg = readyValue reg := by
  obtain ⟨mid, hsplit⟩ := initActs_first_tail (devices_pos s) s.params.selfTestMs
  refine initEnd_chipReg hc hsplit he ?_
  rw [lastWrite_append, lastWrite_initTail _ reg he.1, Option.some_or]

/-- A chip whose registers hold what Configure sends is at Ready (R221). -/
theorem chipReady_of_readyValue {s : State} {d : Nat} (h : ∀ reg, chipReg s d reg = readyValue reg) :
    ChipReady s d :=
  ⟨h _, h _, h _, h _, h _, h _, h _, h _, h _, h _, h _, h _, h _⟩

/-- Settles O51: what INITIALIZE writes after its first frame reaches every register, whatever came before. -/
theorem initializeConfiguresEveryChip : Obligations.InitializeConfiguresEveryChip := by
  intro s hm hs hc
  refine ⟨_, exec_hostInitialize hm hs, mirrors_setResults.mpr (initEnd_mirrors hc), fun d hd => ?_⟩
  refine chipReady_of_readyValue fun reg => ?_
  rw [chipReg_setResults, initEnd_readyValue hc hd]

end Sys2Proof.Machine

/-!
PROOFS of the exceptions' statements (60_exceptions.md): the operations that are dropped (R232 to R235, R238, R239), and
that every operation accepted ends with one result (R231).
-/

namespace Sys2Proof.Machine

open Sys2Proof.Safety

/-! ## The drop -/

theorem validDevice_eq_false {n : Nat} {device : Int} (h : device < 0 ∨ (n : Int) ≤ device) :
    validDevice n device = false := by
  rw [← Bool.not_eq_true, validDevice_iff]; omega

theorem inRange_eq_false {hi z : Int} (h : z < 0 ∨ hi < z) : inRange hi z = false := by
  rw [← Bool.not_eq_true, inRange_iff]; omega

/-- An accepted operation that is dropped hands its code to the caller and changes nothing else (R239). -/
theorem whenReady_drops {s : State} {code : Result} {body : State → State × Result} (ha : Accepts s)
    (hbody : body s = (s, code)) :
    whenReady body s = .next { s with results := s.results ++ [code] } := by
  rw [whenReady_accepts ha, hbody]; rfl

/-- Settles O41: the device is the first check of each of the eight operations, and INITIALIZE has no check. -/
theorem invalidDeviceIsDropped : Obligations.InvalidDeviceIsDropped := by
  intro s device ha hout
  have hv : validDevice s.devices device = false := validDevice_eq_false hout
  refine ⟨fun a b e => ?_, _, exec_hostInitialize ha.2 (.inr ha.1), rfl⟩
  refine ⟨?_, ?_, ?_, ?_, ?_, ?_, ?_, ?_⟩ <;> exact whenReady_drops ha (deviceCheck_fails hv _ _)

/-- A bad second value on a valid device is dropped with INVALID_VALUE, the first one in range (R238). -/
theorem secondValueCheck_fails {device : Int} {s : State} (hv : validDevice s.devices device = true) {hi z hi' z' : Int}
    (hz : inRange hi z = true) (hz' : inRange hi' z' = false) (rest : List (Bool × Result))
    (body : State → State × Result) :
    checked (deviceCheck s device :: valueCheck hi z :: valueCheck hi' z' :: rest) body s = (s, .invalidValue) := by
  rw [deviceCheck, valueCheck, valueCheck, hv, hz, hz', checked_pass, checked_pass, checked_fail]

/-- Settles O42: the row is checked before the column. -/
theorem invalidRowOrColumnIsDropped : Obligations.InvalidRowOrColumnIsDropped := by
  intro s device row column state ha h0 hn hbad
  have hv := validDevice_of_bounds h0 hn
  refine whenReady_drops ha ?_
  cases hr : inRange 7 row with
  | false => exact valueCheck_fails hv hr _ _
  | true =>
    have hrow := inRange_iff.mp hr
    have hc : inRange 7 column = false := inRange_eq_false (by omega)
    exact secondValueCheck_fails hv hr hc _ _

/-- Settles O43: the level is checked after the device. -/
theorem invalidIntensityIsDropped : Obligations.InvalidIntensityIsDropped := by
  intro s device level ha h0 hn hbad
  exact whenReady_drops ha (valueCheck_fails (validDevice_of_bounds h0 hn) (inRange_eq_false hbad) _ _)

/-- Settles O44: the limit is checked after the device. -/
theorem invalidScanLimitIsDropped : Obligations.InvalidScanLimitIsDropped := by
  intro s device limit ha h0 hn hbad
  exact whenReady_drops ha (valueCheck_fails (validDevice_of_bounds h0 hn) (inRange_eq_false hbad) _ _)

/-! ## One result for every operation -/

/-- At Ready every host operation is accepted and completes, dropped or not (R231, R262). -/
theorem exec_host_completes {s : State} {op : HostOp} {i : Instr} (ha : Accepts s) (hd : decodeHost op = .ok i) :
    ∃ t, exec i s = .next t := by
  by_cases hi : i = .hostInitialize
  · subst hi
    exact ⟨_, exec_hostInitialize ha.2 (.inr ha.1)⟩
  · exact ⟨_, (exec_hostActs hd hi s).trans (whenReady_accepts ha _)⟩

/-- Settles O47: INITIALIZE ends at Ready, and no other operation moves the sequencer. -/
theorem everyOperationEndsWithOneResult : Obligations.EveryOperationEndsWithOneResult := by
  intro s op i ha hd
  obtain ⟨t, ht⟩ := exec_host_completes ha hd
  rcases exec_host_next hd ht with ⟨-, rfl⟩ | ⟨-, rfl⟩
  · refine ⟨_, .ok, ht, rfl, ?_, ?_⟩
    · rw [setResults_seq, initEnd_seq]
    · rw [setResults_micro, initEnd_micro, ha.2]
  · have hran := runActs_ran _ s (hostActs_ok s.devices s.shadow i)
    refine ⟨_, _, ht, rfl, ?_, hran.micro.trans ha.2⟩
    rw [setResults_seq, hran.seq, seqAfter_quiet (hostActs_quiet _ _ i), ha.1]

end Sys2Proof.Machine

/-!
PROOFS of the reset and hazard statements (70_reset_and_hazards.md): the operations that are refused (R262, R275), the
frame whose first edge is missing (R264), the observer of the pins (R282), and the chips that the block never reads
(R272).
-/

namespace Sys2Proof.Machine

open Sys2Proof.Safety

/-! ## The operations refused -/

theorem whenReady_notReady {s : State} (hm : s.micro = .idle) (hs : s.seq ≠ .ready)
    (body : State → State × Result) : whenReady body s = .refused .notReady := by
  rw [whenReady, if_pos hm, if_neg hs]

theorem whenReady_frameRunning {s : State} (hm : s.micro ≠ .idle) (body : State → State × Result) :
    whenReady body s = .refused .frameRunning := by
  rw [whenReady, if_neg hm]

/-- INITIALIZE is refused inside its own run (R210). -/
theorem exec_hostInitialize_sequencerRunning {s : State} (hm : s.micro = .idle) (hp : s.seq ≠ .powerOn)
    (hr : s.seq ≠ .ready) : exec .hostInitialize s = .refused .sequencerRunning := by
  show whenPowerOnOrReady runInitialize s = _
  rw [whenPowerOnOrReady, if_pos hm, if_neg (not_or.mpr ⟨hp, hr⟩)]

theorem exec_hostInitialize_frameRunning {s : State} (hm : s.micro ≠ .idle) :
    exec .hostInitialize s = .refused .frameRunning := by
  show whenPowerOnOrReady runInitialize s = _
  rw [whenPowerOnOrReady, if_neg hm]

/-- Selector 0 alone names INITIALIZE (R85). -/
theorem decodeHost_ne_initialize {op : HostOp} {i : Instr} (hd : decodeHost op = .ok i) (hsel : op.sel ≠ 0) :
    i ≠ .hostInitialize := by
  rintro rfl
  obtain ⟨rec, hrec, hsame⟩ := decodeHost_host hd
  cases hrec
  exact hsel hsame.symm

/-- Settles O45: what is not INITIALIZE, a reserved selector included (log 15), asks for Ready. -/
theorem onlyInitializeBeforeReady : Obligations.OnlyInitializeBeforeReady := by
  intro s hm hs
  refine ⟨fun op i hd hi => ?_, fun op rest hl hp hsel => ?_, fun hpo => ⟨_, exec_hostInitialize hm (.inl hpo)⟩,
    fun hpo => exec_hostInitialize_sequencerRunning hm hpo hs⟩
  · rw [exec_hostActs hd hi, whenReady_notReady hm hs]
  · have hrefused := whenReady_notReady (s := s.setPort rest) hm hs
    cases hd : decodeHost op with
    | ok i =>
      rw [stepRunsThePresentedOperation s op rest i hl hm hp hd,
        exec_hostActs hd (decodeHost_ne_initialize hd hsel), hrefused]
    | error e =>
      simp only [step, fetch_host hl hm hp, hd]
      exact hrefused _

/-- Settles O46: the position is asked for before the sequencer, by INITIALIZE and by every other operation (log 16). -/
theorem noOperationWhileAFrameRuns : Obligations.NoOperationWhileAFrameRuns := by
  intro s op i hm hd
  by_cases hi : i = .hostInitialize
  · subst hi
    exact exec_hostInitialize_frameRunning hm
  · rw [exec_hostActs hd hi, whenReady_frameRunning hm]

/-! ## The observer -/

/-- Settles O10: the observer is between frames again after each one (`see_frame`), so that a list of frames is read
frame by frame. -/
theorem observerReadsFramesBack : Obligations.ObserverReadsFramesBack := framesOf_flatMap_frameEvents

/-! ## The missing first edge -/

/-- Bit `k` of the word of chip `d` stands at position 16d + k of the shift register (R61). -/
theorem chipWord_getLsbD (chain : List Bool) (d : Nat) {k : Nat} (hk : k < 16) :
    (chipWord chain d).getLsbD k = chain[16 * d + k]?.getD false := by
  have hword : chipWord chain d = BitVec.ofNat 16 (bitsToNat ((chain.drop (16 * d)).take 16)) := rfl
  rw [hword, BitVec.getLsbD_ofNat, bitsToNat_testBit, List.getD_eq_getElem?_getD, List.getElem?_take_of_lt hk,
    List.getElem?_drop, decide_eq_true hk, Bool.true_and]

/-- Without the first of its bits a list leaves the same bits in the shift register but at the position where that bit
would stand: there the bit that was nearest the controller has come (R264). -/
theorem shiftAll_drop_one_getElem? {wired : Nat} {bs chain : List Bool} (hc : chain.length ≤ 16 * wired) {p : Nat}
    (hp : p < bs.length) (hw : p < 16 * wired) :
    (shiftAll wired (bs.drop 1) chain)[p]? =
      if p + 1 = bs.length then chain[0]? else (shiftAll wired bs chain)[p]? := by
  have hlen : (bs.drop 1).length = bs.length - 1 := List.length_drop
  split
  · next hlast =>
    have hbeyond : (bs.drop 1).reverse.length ≤ p := by rw [List.length_reverse, hlen]; omega
    rw [shiftAll_eq _ _ _ hc, List.getElem?_take_of_lt hw, List.getElem?_append_right hbeyond, List.length_reverse,
      hlen, show p - (bs.length - 1) = 0 by omega]
  · next hne =>
    rw [shiftAll_getElem? hc (by omega) hw, shiftAll_getElem? hc hp hw, List.getElem?_drop, hlen]
    congr 1
    omega

/-- With CLK high the first bit sent is no edge (R132, R264). -/
theorem chainAfter_clkHigh (wired : Nat) (bs chain : List Bool) :
    chainAfter wired true bs chain = shiftAll wired (bs.drop 1) chain := rfl

/-- Settles O14: the frame without its first bit, and among the positions of the chain's devices only the farthest one
shows it. It is a claim about the reference receiver (log 18). -/
theorem missingFirstEdgeSpoilsOneBit : Obligations.MissingFirstEdgeSpoilsOneBit := by
  intro s d k hclk hc ⟨hn, hw⟩ hk
  have hlen := wireBits_length s.txbuf s.devices
  have hlast : 16 * d + k + 1 = 16 * s.devices ↔ d = s.devices - 1 ∧ k = 15 := by omega
  rw [sendSlots_chain, hclk, chainAfter_clkHigh, chipWord_getLsbD _ _ hk,
    shiftAll_drop_one_getElem? hc.le (by omega) (by omega), hlen, if_congr hlast rfl rfl]
  split
  · rfl
  · rw [← chipWord_getLsbD _ _ hk, chipWord_of_frame _ _ _ _ _ hn hw hc.le, txbufAt, txbufAt]

/-! ## The chips are never read -/

/-- A change of the state that does the same to all of it but the chips, whatever the chips hold (R71, R272). -/
def IgnoresChips (f : State → State) : Prop :=
  ∀ (s : State) (chips : Receiver), ∃ after, f (s.setRx chips) = (f s).setRx after

theorem IgnoresChips.comp {f g : State → State} (hg : IgnoresChips g) (hf : IgnoresChips f) :
    IgnoresChips fun s => g (f s) := by
  intro s chips
  obtain ⟨mid, hmid⟩ := hf s chips
  obtain ⟨after, hafter⟩ := hg (f s) mid
  exact ⟨after, (congrArg g hmid).trans hafter⟩

theorem ignoresChips_pin (p : Pin) (l : Bool) : IgnoresChips (pin p l) := fun _ _ => ⟨_, rfl⟩

theorem ignoresChips_dirOut (p : Pin) : IgnoresChips (dirOut p) := fun _ _ => ⟨_, rfl⟩

theorem ignoresChips_gotoSeq (q : Seq) : IgnoresChips (gotoSeq q) := fun _ _ => ⟨_, rfl⟩

/-- The buffer is cleared without a look at the chips (R143). -/
theorem clearTxbuf_setRx (k : Nat) (s : State) (chips : Receiver) :
    clearTxbuf k (s.setRx chips) = (clearTxbuf k s).setRx chips := by
  induction k with
  | zero => rfl
  | succ k ih => rw [clearTxbuf, ih]; rfl

theorem ignoresChips_sendCommand (d : Nat) (o v : Byte) : IgnoresChips (sendCommand d o v) := by
  intro s chips
  have hbuffer : buildBuffer d o v (s.setRx chips) = (buildBuffer d o v s).setRx chips := by
    rw [buildBuffer, setRx_devices, clearTxbuf_setRx]; rfl
  exact ⟨_, by rw [sendCommand, hbuffer, transmitChain_eq, sendCommand, transmitChain_eq]; rfl⟩

theorem ignoresChips_act (a : Act) : IgnoresChips a.run := by
  cases a with
  | cmd d o v => exact ignoresChips_sendCommand d o v
  | store d r v => exact fun _ _ => ⟨_, rfl⟩
  | goto q => exact ignoresChips_gotoSeq q
  | wait n => exact fun _ _ => ⟨_, rfl⟩

theorem ignoresChips_runActs (l : List Act) : IgnoresChips (runActs l) := by
  induction l with
  | nil => exact fun _ _ => ⟨_, rfl⟩
  | cons a l ih => exact ih.comp (ignoresChips_act a)

/-- INITIALIZE drives the pins and sends its frames without a look at the chips (R210, R272). -/
theorem ignoresChips_initEnd : IgnoresChips initEnd := by
  intro s chips
  have hground : IgnoresChips initGround :=
    (ignoresChips_pin _ _).comp <| (ignoresChips_gotoSeq _).comp <| (ignoresChips_dirOut _).comp <|
      (ignoresChips_dirOut _).comp <| (ignoresChips_dirOut _).comp (ignoresChips_gotoSeq _)
  exact (ignoresChips_runActs (initActs s.devices s.params.selfTestMs)).comp hground s chips

/-- Settles O58: whether an operation is accepted, its acts and its result are given by the block alone, and its acts
ignore the chips. -/
theorem chipsNeverInfluenceTheBlock : Obligations.ChipsNeverInfluenceTheBlock := by
  intro s t chips op i hd h
  by_cases hi : i = .hostInitialize
  · subst hi
    obtain ⟨hm, hs, -⟩ := whenPowerOnOrReady_next h
    rw [exec_hostInitialize hm hs] at h
    cases h
    obtain ⟨after, hafter⟩ := ignoresChips_initEnd s chips
    refine ⟨_, exec_hostInitialize (s := s.setRx chips) hm hs, ?_⟩
    rw [hafter]
    rfl
  · rw [exec_hostActs hd hi] at h
    obtain ⟨ha, rfl⟩ := whenReady_next h
    obtain ⟨after, hafter⟩ := ignoresChips_runActs (hostActs s.devices s.shadow i).1 s chips
    refine ⟨_, (exec_hostActs hd hi _).trans (whenReady_accepts (s := s.setRx chips) ha _), ?_⟩
    rw [setRx_devices, setRx_shadow, bodyOf, hafter]
    rfl

end Sys2Proof.Machine
